-- ==== Sys2Proof/Word.lean ====
section
/-! DEFINITION. The two widths of MXC: bytes of SRC, DST and the wire, and 32-bit registers (10_state.md R20). -/

namespace Sys2Proof

/-- A byte of SRC, of DST or of a frame: 8 bits (00_scope.md R9). -/
abbrev Byte := BitVec 8

/-- A register or a command word: 32 bits (10_state.md R20, 30_encoding.md R83). -/
abbrev Word := BitVec 32

end Sys2Proof
end

