-- ==== Sys2Proof/Syntax.lean ====
section
/-! DEFINITION. The six commands of MXC, one constructor for each row of spec/opcode_table.json. -/

namespace Sys2Proof

/-- The commands (30_encoding.md R84). A command word has no register fields and no immediates (R83), so
no constructor has an argument: every operand comes from a register or a memory (R86). -/
inductive Instr where
  /-- DECODE_HEADER: parse one header from SRC into the HRF (40_header_codec.md R113). -/
  | decodeHeader
  /-- DESTRIDE: remove the row padding of a payload (41_payload_decode.md R137). -/
  | destride
  /-- DECODE: parse a whole frame (43_composite.md R170). -/
  | decode
  /-- ENCODE_HEADER: compute and emit a header (40_header_codec.md R116). -/
  | encodeHeader
  /-- RESTRIDE: emit the unpadded payload of a dense buffer (42_payload_encode.md R151). -/
  | restride
  /-- ENCODE: emit a whole frame (43_composite.md R171). -/
  | encode
  deriving DecidableEq, Repr

end Sys2Proof
end

