-- ==== Sys2Proof/Decode.lean ====
section
/-! DEFINITION. The command word: its fields, the decoder and the encoder (30_encoding.md R83 to R85). -/

namespace Sys2Proof

/-- `OP = word[3:0]` (30_encoding.md R83). -/
def opField (w : Word) : BitVec 4 := w.extractLsb' 0 4

/-- `RSVD = word[31:4]` (30_encoding.md R83). -/
def rsvdField (w : Word) : BitVec 28 := w.extractLsb' 4 28

/-- Why a word is not one of the six commands (30_encoding.md R85). -/
inductive Illegal where
  /-- RSVD is not 0; safe, the machine completes the word with ILLEGAL_COMMAND. -/
  | reservedBitsSet
  /-- OP is 0 or 7 to 15; safe, the machine completes the word with ILLEGAL_COMMAND. -/
  | opNotAssigned
  deriving DecidableEq, Repr

/-- The command whose code is OP (30_encoding.md R84), if there is one. -/
def commandOfOp (op : BitVec 4) : Option Instr :=
  match op with
  | 0x1#4 => some .decodeHeader
  | 0x2#4 => some .destride
  | 0x3#4 => some .decode
  | 0x4#4 => some .encodeHeader
  | 0x5#4 => some .restride
  | 0x6#4 => some .encode
  | _ => none

/-- The decoder, total on 32-bit words: the whole word selects, mask 0xFFFFFFFF (30_encoding.md R84, R85). -/
def decode (w : Word) : Except Illegal Instr :=
  if rsvdField w = 0 then
    match commandOfOp (opField w) with
    | some i => .ok i
    | none => .error .opNotAssigned
  else .error .reservedBitsSet

/-- The encoder: the command word of each command, from the table of 30_encoding.md R84. -/
def encode : Instr → Word
  | .decodeHeader => 0x00000001#32
  | .destride => 0x00000002#32
  | .decode => 0x00000003#32
  | .encodeHeader => 0x00000004#32
  | .restride => 0x00000005#32
  | .encode => 0x00000006#32

/-- The instruction the decoder reads from an opcode-table word of `nbits` bits: the word is one 32-bit
register value (30_encoding.md R94), bit 0 its least significant, bits above `nbits` zero. -/
def decodeTableWord (nbits w : Nat) : Option Instr :=
  match decode (BitVec.ofNat 32 (w % 2 ^ nbits)) with
  | .ok i => some i
  | .error _ => none

end Sys2Proof
end

