-- ==== Sys2Proof/Config.lean ====
section
/-! DEFINITION. What an implementation fixes and what the spec leaves free. Every constant here is opaque:
no proof can see a value of it. -/

namespace Sys2Proof
namespace Config

/-- SRC_SIZE, the size of SRC in bytes, 0 to 2^32 - 1; OPEN (00_scope.md R8, 92_eei_decisions.md D19; log 1). -/
opaque srcSize : Word

/-- DST_SIZE, the size of DST in bytes, 0 to 2^32 - 1; OPEN (00_scope.md R8, 92_eei_decisions.md D19; log 1). -/
opaque dstSize : Word

/-- ROW_STRIDE_SLOT, 0 or 1: the strides slot that holds the row stride; OPEN (00_scope.md R8,
92_eei_decisions.md D9; log 1). -/
opaque rowStrideSlot : Fin 2

/-- Free value: the byte at a DST address that no command has written since the reset with this number
(10_state.md R46, 70_reset_and_hazards.md R238; log 5). -/
opaque dstUnspecified : (resetNumber address : Nat) → Byte

/-- Free value: what a host read of DST returns while BUSY = 1, a fresh one for each draw
(20_memory.md R74, 70_reset_and_hazards.md R237; log 6). -/
opaque dstWhileBusy : (draw : Nat) → Byte

/-- Free value: what a host read-back of a SRC byte returns that the host has not written since the reset
with this number; the spec states no value (log 7). DESIGN CHOICE. -/
opaque srcUnwritten : (resetNumber address : Nat) → Byte

end Config
end Sys2Proof
end

