-- ==== Sys2Proof/Machine/Bus.lean ====
section
/-! DEFINITION. The types of the host interface: registers, bus transactions and the events that reach MXC
from outside (20_memory.md R60, R64; 30_encoding.md R92, R94; 70_reset_and_hazards.md R230). -/

namespace Sys2Proof
namespace Machine

/-- The width of a host access to the register window; only `word` has a meaning (20_memory.md R68). -/
inductive AccessWidth where
  | byte
  | half
  | word
  deriving DecidableEq, Repr

/-- The registers of the window (20_memory.md R64). -/
inductive Reg where
  | cmd
  | status
  | errcode
  | srcOff
  | srcLen
  | bytesConsumed
  | outLen
  | strideGroups
  | fill
  | block
  | keptCount
  | skippedCount
  | srcSizeReg
  | dstSizeReg
  | config
  /-- A reserved offset 0x03C to 0x0FF: reads 0, ignores writes (10_state.md R41). -/
  | reserved
  /-- HRF word `k`, at offset 0x100 + 4k (10_state.md R30). -/
  | hrf (k : Fin 74)
  deriving DecidableEq, Repr

/-- One transaction of the host (30_encoding.md R92). A register access of a forbidden width, at a misaligned
offset or outside the window can be written down here; the machine refuses it (60_exceptions.md R214). -/
inductive Transaction where
  | regWrite (width : AccessWidth) (offset : Nat) (value : Word)
  | regRead (width : AccessWidth) (offset : Nat)
  | srcWrite (address : Nat) (value : Byte)
  | srcRead (address : Nat)
  | dstRead (address : Nat)
  deriving DecidableEq, Repr

/-- What comes next at MXC's boundary: a host transaction, the engine's turn, or the reset input. Two agents
take steps (10_state.md R21), in any interleaving; a list of inputs is one interleaving (log 3). -/
inductive Input where
  | host (t : Transaction)
  | engineTurn
  | reset
  deriving DecidableEq, Repr

/-- What one read of the host returned. -/
inductive HostRead where
  | reg (offset : Nat) (value : Word)
  | src (address : Nat) (value : Byte)
  | dst (address : Nat) (value : Byte)
  deriving DecidableEq, Repr

end Machine
end Sys2Proof
end

