-- ==== Sys2Proof/Machine/State.lean ====
section
/-! DEFINITION. The state of MXC as plain data (10_state.md R22), the reasons a step can stop, and the state
after reset (10_state.md R46). -/

namespace Sys2Proof
namespace Machine

/-- A byte memory: the written bytes, addresses strictly rising. An address that is not listed holds no value:
no one has written it since reset (10_state.md R46, 20_memory.md R77; logs 5 and 8). -/
abbrev Memory := List Host.Cell

/-- A header image: the 74 words of the HRF, word `k` for the header bytes `4k` to `4k + 3` (10_state.md R30). -/
abbrev Header := Vector Word 74

/-- STATUS (10_state.md R24). Bits 31:5 are reserved and read 0; `Status.word` assembles the register (log 18). -/
structure Status where
  /-- Bit 0: a command is accepted and not completed (R25). -/
  busy : Bool
  /-- Bit 1: a command has completed since the last accept (R26). -/
  done : Bool
  /-- Bit 2: the last completed command ended in an error (R27). -/
  err : Bool
  /-- Bit 3: the HRF holds the last committed header image, untouched by the host (R28). -/
  hdrValid : Bool
  /-- Bit 4: a host register write was dropped while BUSY = 1 (R29). -/
  wrIgnored : Bool
  deriving DecidableEq, Repr

/-- The seven result registers (10_state.md R39). -/
structure Results where
  bytesConsumed : Word
  outLen : Word
  strideGroups : Word
  fill : Word
  block : Word
  keptCount : Word
  skippedCount : Word
  deriving DecidableEq, Repr

/-- The capability registers (10_state.md R40), constant: SRC_SIZE_REG, DST_SIZE_REG, and the slot number that
CONFIG shows in bit 0. The engine reads the parameters here (log 1). -/
structure Capability where
  srcSize : Word
  dstSize : Word
  rowStrideSlot : Fin 2
  deriving DecidableEq, Repr

/-- The state of MXC (10_state.md R22), and after it four fields of the model's own (logs 3 to 6, 19). -/
structure State where
  /-- CMD (R23). -/
  cmd : Word
  /-- STATUS (R24). -/
  status : Status
  /-- ERRCODE (R35). -/
  errcode : Word
  /-- SRC_OFF (R36). -/
  srcOff : Word
  /-- SRC_LEN (R37). -/
  srcLen : Word
  /-- The result registers (R39). -/
  results : Results
  /-- The capability registers (R40). -/
  caps : Capability
  /-- The header register file (R30). -/
  hrf : Header
  /-- PENDING, the hidden command latch (R42). -/
  pending : Word
  /-- The source memory (20_memory.md R61). -/
  src : Memory
  /-- The destination memory (20_memory.md R62). -/
  dst : Memory
  /-- The model's own: what is still to come at the boundary, in order (log 3). -/
  inputs : List Input
  /-- The model's own: what the host's reads returned, newest first (log 4). -/
  hostReads : List HostRead
  /-- The model's own: the number of the last reset; it selects the free values of unwritten bytes (logs 5, 7). -/
  resetCount : Nat
  /-- The model's own: how many free values DST reads under BUSY have drawn (log 6). -/
  draws : Nat
  deriving DecidableEq, Repr

/-- Why the machine stops with a fault. -/
inductive Fault where
  /-- Raised by a command that reads a SRC byte the host has not written since reset (20_memory.md R77,
  60_exceptions.md R214). Safe: the hardware reads some stale byte and goes on; no claim holds of such a run. -/
  | unwrittenSrcByte
  deriving DecidableEq, Repr

/-- Why a step has no meaning (60_exceptions.md R214); every one is raised by a host transaction. -/
inductive Refusal where
  /-- Raised by no one: every command has its meaning. Safe. -/
  | notModelled (mnemonic : String)
  /-- A register access that is not 32 bits wide (20_memory.md R68). Safe: no claim holds of such a run. -/
  | registerAccessWidth
  /-- A register access at an offset that is not a multiple of 4 (20_memory.md R68). Safe, as above. -/
  | registerAccessMisaligned
  /-- A register access at offset 0x228 or above (20_memory.md R64). Safe, as above. -/
  | registerOutsideWindow
  /-- A host access to SRC at or beyond SRC_SIZE (60_exceptions.md R214). Safe, as above. -/
  | srcAddressOutside
  /-- A host write to SRC while BUSY = 1 (70_reset_and_hazards.md R236). Safe, as above. -/
  | srcWriteWhileBusy
  /-- A host access to DST at or beyond DST_SIZE (60_exceptions.md R214). Safe, as above. -/
  | dstAddressOutside
  deriving DecidableEq, Repr

/-- STATUS after reset: every bit 0 (10_state.md R46). -/
def Status.reset : Status := ⟨false, false, false, false, false⟩

/-- The result registers with 0 in each: after reset (10_state.md R46) and after an error (60_exceptions.md R210). -/
def Results.zero : Results := ⟨0, 0, 0, 0, 0, 0, 0⟩

/-- The machine right after reset (10_state.md R46, 70_reset_and_hazards.md R232). PENDING's 0 is a DESIGN CHOICE
(log 2), and so are the values of the model's own fields (logs 3, 4, 19). -/
def State.reset : State where
  cmd := 0
  status := Status.reset
  errcode := 0
  srcOff := 0
  srcLen := 0
  results := Results.zero
  caps := ⟨Config.srcSize, Config.dstSize, Config.rowStrideSlot⟩
  hrf := Vector.replicate 74 0
  pending := 0
  src := []
  dst := []
  inputs := []
  hostReads := []
  resetCount := 0
  draws := 0

end Machine
end Sys2Proof
end

