-- ==== Sys2Proof/Machine/Operands.lean ====
section
/-! DEFINITION. How operands are read: signed fields, byte order, slices of byte sequences, the bytes available,
and the named fields of a header image (00_scope.md R9 to R14, 10_state.md R30 to R38). -/

namespace Sys2Proof
namespace Machine

/-- `HDR_LEN`, the length of the header on the wire (00_scope.md R7). -/
abbrev hdrLen : Nat := 296

/-- `I32MAX = 2^31 - 1` (00_scope.md R10). -/
abbrev i32Max : Nat := 2 ^ 31 - 1

/-- `s32(u)`: a 32-bit pattern read as two's complement (00_scope.md R10). -/
def s32 (u : Word) : Int := u.toInt

/-- `u32(v)` for a number that is not negative: `v mod 2^32` as a register value (00_scope.md R10; log 15). -/
def u32 (v : Nat) : Word := BitVec.ofNat 32 v

/-- `LE(s)`: the number whose little-endian bytes are `s` (00_scope.md R12). -/
def leNat : List Byte → Nat
  | [] => 0
  | b :: bs => b.toNat + 256 * leNat bs

/-- `BE(s)`: the number whose big-endian bytes are `s` (00_scope.md R12). -/
def beNat (s : List Byte) : Nat := leNat s.reverse

/-- `le_bytes(n, v)`: the `n` bytes of `v mod 2^(8n)`, least significant first (00_scope.md R12). -/
def leBytes : Nat → Nat → List Byte
  | 0, _ => []
  | n + 1, v => BitVec.ofNat 8 v :: leBytes n (v / 256)

/-- `be_bytes(n, v)`: the same bytes, most significant first (00_scope.md R12). -/
def beBytes (n v : Nat) : List Byte := (leBytes n v).reverse

/-- `s[a .. a + n)` (00_scope.md R12). -/
def slice (s : List Byte) (a n : Nat) : List Byte := (s.drop a).take n

/-- The number of bytes available to a command (10_state.md R38). -/
def State.avail (s : State) : Nat :=
  if s.srcLen.toNat > s.srcOff.toNat then s.srcLen.toNat - s.srcOff.toNat else 0

/-- `OUTER_TAG`, word 0 (10_state.md R31). -/
def Header.outerTag (h : Header) : Word := h[0]

/-- `OUTER_SIZE`, word 1 (10_state.md R31). -/
def Header.outerSize (h : Header) : Word := h[1]

/-- `INNER_TAG`, word 2 (10_state.md R31). -/
def Header.innerTag (h : Header) : Word := h[2]

/-- `INNER_SIZE`, word 3 (10_state.md R31). -/
def Header.innerSize (h : Header) : Word := h[3]

/-- `PLANE_COUNT`, word 4 (10_state.md R31). -/
def Header.planeCount (h : Header) : Word := h[4]

/-- `SAMPLE_TYPE`, word 5 (10_state.md R31). -/
def Header.sampleType (h : Header) : Word := h[5]

/-- `DIM_COUNT`, word 6 (10_state.md R31). -/
def Header.dimCount (h : Header) : Word := h[6]

/-- `DIMS[i]`, word 7 + i (10_state.md R31). -/
def Header.dims (h : Header) (i : Fin 32) : Word := h[7 + i.val]

/-- `STRIDES[i]`, word 39 + i (10_state.md R31). -/
def Header.strides (h : Header) (i : Fin 32) : Word := h[39 + i.val]

/-- `DATA_SIZE`, word 71 (10_state.md R31). -/
def Header.dataSize (h : Header) : Word := h[71]

/-- `TIMESTAMP_HI`, word 72 (10_state.md R31, R34). -/
def Header.timestampHi (h : Header) : Word := h[72]

/-- `TIMESTAMP_LO`, word 73 (10_state.md R31, R34). -/
def Header.timestampLo (h : Header) : Word := h[73]

/-- `STRIDES[ROW_STRIDE_SLOT]`, the word of the row stride (41_payload_decode.md R131). -/
def Header.rowStride (h : Header) (slot : Fin 2) : Word := h.strides ⟨slot.val, by omega⟩

end Machine
end Sys2Proof
end

