-- ==== Sys2Proof/Machine/Header.lean ====
section
/-! DEFINITION. The header codec's pure functions: ParseHeader and SerializeHeader (40_header_codec.md R110, R111),
EncodeHeaderImage (R115). -/

namespace Sys2Proof
namespace Machine

/-- Whether header word `k` is packed least significant byte first: the outer tag (word 0), the outer size
(word 1) and the inner tag (word 2). Every other field is big-endian (20_memory.md R65, 30_encoding.md R82). -/
def littleEndianWord (k : Nat) : Bool := k < 3

/-- Header word `k` from its four wire bytes (40_header_codec.md R110). -/
def wordOfWire (k : Nat) (bytes : List Byte) : Word :=
  BitVec.ofNat 32 (if littleEndianWord k then leNat bytes else beNat bytes)

/-- The four wire bytes of header word `k` (40_header_codec.md R111). -/
def wireOfWord (k : Nat) (w : Word) : List Byte :=
  if littleEndianWord k then leBytes 4 w.toNat else beBytes 4 w.toNat

/-- `ParseHeader(f)` for 296 bytes `f`: word `k` from the wire bytes `4k` to `4k + 3`; nothing is checked
(40_header_codec.md R110, 10_state.md R30). -/
def parseHeader (f : List Byte) : Header :=
  Vector.ofFn fun k => wordOfWire k.val (slice f (4 * k.val) 4)

/-- `SerializeHeader(H)`: the 296 header bytes (40_header_codec.md R111). -/
def serializeHeader (h : Header) : List Byte :=
  (List.finRange 74).flatMap fun k => wireOfWord k.val h[k]

/-- Word `k` of the header image the encode commands emit, over the word `old` of the HRF (40_header_codec.md
R115). Words 0 to 3, 72 and 73 (tags, sizes, timestamp) pass through. -/
def encodeHeaderWord (pc dx dy n : Nat) (k : Nat) (old : Word) : Word :=
  if k = 4 then u32 pc                        -- PLANE_COUNT
  else if k = 5 then 0                        -- SAMPLE_TYPE
  else if k = 6 then 2                        -- DIM_COUNT
  else if k = 7 then u32 dx                   -- DIMS[0]
  else if k = 8 then u32 dy                   -- DIMS[1]
  else if 9 ≤ k ∧ k ≤ 38 then 1               -- DIMS[2] to DIMS[31]
  else if k = 39 ∨ k = 40 then u32 (pc * dx)  -- STRIDES[0], STRIDES[1]
  else if 41 ≤ k ∧ k ≤ 70 then 0              -- STRIDES[2] to STRIDES[31]
  else if k = 71 then u32 n                   -- DATA_SIZE
  else old

/-- `EncodeHeaderImage(pc, dx, dy, n)` over the current HRF (40_header_codec.md R115). -/
def encodeHeaderImage (hrf : Header) (pc dx dy n : Nat) : Header :=
  Vector.ofFn fun k => encodeHeaderWord pc dx dy n k.val hrf[k]

end Machine
end Sys2Proof
end

