-- ==== Sys2Proof/Machine/Flags.lean ====
section
/-! DEFINITION. MXC's flags, the STATUS bits (10_state.md R24, R45), and the error codes (60_exceptions.md R200). -/

namespace Sys2Proof
namespace Machine

/-- The error kinds a command can raise (60_exceptions.md R200), in the order of their codes. -/
inductive ErrorKind where
  | truncatedHeader
  | truncatedPayload
  | invalidGeometry
  | unsupportedSampleType
  | illegalCommand
  | dstOverflow
  deriving DecidableEq, Repr

/-- `ERRCODE.CODE` of an error kind (60_exceptions.md R200). -/
def ErrorKind.code : ErrorKind → Word
  | .truncatedHeader => 1
  | .truncatedPayload => 2
  | .invalidGeometry => 3
  | .unsupportedSampleType => 4
  | .illegalCommand => 5
  | .dstOverflow => 6

/-- One flag at its bit position. -/
def flagBit (b : Bool) (i : Nat) : Word := if b then BitVec.ofNat 32 (2 ^ i) else 0

/-- The word a read of STATUS returns; bits 31:5 are 0 (10_state.md R24). -/
def Status.word (f : Status) : Word :=
  flagBit f.busy 0 ||| flagBit f.done 1 ||| flagBit f.err 2 ||| flagBit f.hdrValid 3 ||| flagBit f.wrIgnored 4

/-- The flags after an accept; HDR_VALID is not touched (60_exceptions.md R209). -/
def Status.accepted (f : Status) : Status :=
  { f with busy := true, done := false, err := false, wrIgnored := false }

/-- The flags after an error completion (60_exceptions.md R210). -/
def Status.failed (f : Status) : Status := { f with busy := false, done := true, err := true }

/-- The flags after a success completion (60_exceptions.md R211); a command that commits a header image sets
HDR_VALID, the others leave it (10_state.md R28). -/
def Status.succeeded (f : Status) (headerWritten : Bool) : Status :=
  { f with busy := false, done := true, err := false, hdrValid := headerWritten || f.hdrValid }

/-- The flags after a dropped register write (10_state.md R29, 70_reset_and_hazards.md R235). -/
def Status.writeDropped (f : Status) : Status := { f with wrIgnored := true }

/-- The flags after a host write to an HRF register (10_state.md R32). -/
def Status.headerTouched (f : Status) : Status := { f with hdrValid := false }

end Machine
end Sys2Proof
end

