-- ==== Sys2Proof/Machine/Ops.lean ====
section
/-! DEFINITION. The named operations: bytes of SRC and DST, the register window, accept, error completion (MXC's
taking of an exception), success completion, reset (20_memory.md, 60_exceptions.md, 70_reset_and_hazards.md). -/

namespace Sys2Proof
namespace Machine

/-! ### Byte memories -/

/-- The canonical form: addresses strictly rising. An unlisted address reads as no value, which no entry equals. -/
abbrev Memory.wf (m : Memory) : Prop := m.Pairwise fun c d => c.1 < d.1

/-- The byte at an address, if it holds one (20_memory.md R77). -/
def Memory.read : Memory → Nat → Option Byte
  | [], _ => none
  | (b, v) :: m, a => if a = b then some v else Memory.read m a

/-- Write one byte, keeping the addresses rising. -/
def Memory.write : Memory → Nat → Byte → Memory
  | [], a, v => [(a, v)]
  | (b, w) :: m, a, v =>
    if a < b then (a, v) :: (b, w) :: m
    else if a = b then (a, v) :: m
    else (b, w) :: Memory.write m a v

/-- The `n` bytes from address `a`, if all of them hold a value (`MemRead`, 00_scope.md R14). -/
def Memory.readBytes (m : Memory) (a : Nat) : Nat → Option (List Byte)
  | 0 => some []
  | n + 1 =>
    match Memory.read m a, Memory.readBytes m (a + 1) n with
    | some v, some vs => some (v :: vs)
    | _, _ => none

/-- Write a byte sequence from address `a` (`MemWrite`, 00_scope.md R14). -/
def Memory.writeBytes (m : Memory) (a : Nat) : List Byte → Memory
  | [] => m
  | v :: vs => Memory.write (Memory.writeBytes m (a + 1) vs) a v

/-! ### The register window -/

/-- The register at a byte offset that is a multiple of 4, if it lies in the window (20_memory.md R64). -/
def regAt (offset : Nat) : Option Reg :=
  if h : 0x100 ≤ offset ∧ offset < 0x228 then some (.hrf ⟨(offset - 0x100) / 4, by omega⟩)
  else if 0x03C ≤ offset ∧ offset < 0x100 then some .reserved
  else
    match offset with
    | 0x000 => some .cmd
    | 0x004 => some .status
    | 0x008 => some .errcode
    | 0x00C => some .srcOff
    | 0x010 => some .srcLen
    | 0x014 => some .bytesConsumed
    | 0x018 => some .outLen
    | 0x01C => some .strideGroups
    | 0x020 => some .fill
    | 0x024 => some .block
    | 0x028 => some .keptCount
    | 0x02C => some .skippedCount
    | 0x030 => some .srcSizeReg
    | 0x034 => some .dstSizeReg
    | 0x038 => some .config
    | _ => none

/-- The value a host read of a register returns. While BUSY = 1 this is the value from before the command, but for
STATUS and CMD, since the command's effects come in one step (20_memory.md R64, R71, R74). -/
def State.readReg (s : State) : Reg → Word
  | .cmd => s.cmd
  | .status => s.status.word
  | .errcode => s.errcode
  | .srcOff => s.srcOff
  | .srcLen => s.srcLen
  | .bytesConsumed => s.results.bytesConsumed
  | .outLen => s.results.outLen
  | .strideGroups => s.results.strideGroups
  | .fill => s.results.fill
  | .block => s.results.block
  | .keptCount => s.results.keptCount
  | .skippedCount => s.results.skippedCount
  | .srcSizeReg => s.caps.srcSize
  | .dstSizeReg => s.caps.dstSize
  | .config => u32 s.caps.rowStrideSlot.val
  | .reserved => 0
  | .hrf k => s.hrf[k]

/-- `min(v, SRC_SIZE)`, unsigned: what SRC_OFF and SRC_LEN store (10_state.md R36, R37). -/
def State.clampToSrc (s : State) (v : Word) : Word :=
  if v.toNat ≤ s.caps.srcSize.toNat then v else s.caps.srcSize

/-- Accept of the command word `w` (60_exceptions.md R209). -/
def State.accept (s : State) (w : Word) : State :=
  { s with cmd := w, pending := w, status := s.status.accepted, errcode := 0 }

/-- A host register write while BUSY = 0 (20_memory.md R64, R71); writes to read-only registers and reserved
offsets are ignored. -/
def State.writeReg (s : State) (r : Reg) (v : Word) : State :=
  match r with
  | .cmd => s.accept v
  | .srcOff => { s with srcOff := s.clampToSrc v }
  | .srcLen => { s with srcLen := s.clampToSrc v }
  | .hrf k => { s with hrf := s.hrf.set k.val v, status := s.status.headerTouched }
  | .status | .errcode | .bytesConsumed | .outLen | .strideGroups | .fill | .block | .keptCount | .skippedCount
  | .srcSizeReg | .dstSizeReg | .config | .reserved => s

/-- A host register write while BUSY = 1: dropped, and recorded in WR_IGNORED (70_reset_and_hazards.md R235). -/
def State.dropWrite (s : State) : State := { s with status := s.status.writeDropped }

/-- Record what a host read returned (log 4). -/
def State.logRead (s : State) (r : HostRead) : State := { s with hostReads := r :: s.hostReads }

/-! ### Completion and reset -/

/-- Error completion, the shared operation of every `raise E` (60_exceptions.md R210, 00_scope.md R15). There is
no return from it (R212): the next accept clears ERR, DONE and ERRCODE. -/
def State.completeError (s : State) (e : ErrorKind) : State :=
  { s with status := s.status.failed, errcode := e.code, results := Results.zero }

/-- What a successful command commits (00_scope.md R16): a header image or none, the bytes written to DST from
address 0, and the result registers. -/
structure Commit where
  header : Option Header
  out : List Byte
  results : Results
  deriving DecidableEq, Repr

/-- Success completion (60_exceptions.md R211): every write of the commit, then the flags. ERRCODE stays 0, its
value since the accept (log 10). -/
def State.completeSuccess (s : State) (c : Commit) : State :=
  { s with
    hrf := c.header.getD s.hrf
    dst := Memory.writeBytes s.dst 0 c.out
    results := c.results
    status := s.status.succeeded c.header.isSome
    errcode := 0 }

/-- The reset input (70_reset_and_hazards.md R230, R231): every register takes its value of 10_state.md R46, SRC and
DST lose their bytes (log 9), a pending command is abandoned. The constants and the outside world stay. -/
def State.resetInput (s : State) : State :=
  { State.reset with
    caps := s.caps
    inputs := s.inputs
    hostReads := s.hostReads
    resetCount := s.resetCount + 1
    draws := s.draws }

/-! ### Commands as checked computations -/

/-- Why a command's pseudocode ends before its commit: `raise E` (00_scope.md R15), or the model's fault
(60_exceptions.md R214). -/
inductive Stop where
  | raise (e : ErrorKind)
  | fault (f : Fault)
  deriving DecidableEq, Repr

/-- A part of a command's pseudocode: a value, or the reason the command ends here. -/
abbrev Cmd := Except Stop

/-- `if p: raise e`. -/
def raiseIf (p : Prop) [Decidable p] (e : ErrorKind) : Cmd Unit :=
  if p then .error (.raise e) else .ok ()

/-- `MemRead(SRC, a, n)` (00_scope.md R14); a byte without a value is the model's fault (20_memory.md R77; log 8). -/
def State.memRead (s : State) (a n : Nat) : Cmd (List Byte) :=
  match Memory.readBytes s.src a n with
  | some bytes => .ok bytes
  | none => .error (.fault .unwrittenSrcByte)

/-- The end of the command's one atomic step (20_memory.md R72): commit, error completion, or the model's fault. -/
def State.finish (s : State) (c : Cmd Commit) : Host.Outcome State Fault Refusal :=
  match c with
  | .ok commit => .next (s.completeSuccess commit)
  | .error (.raise e) => .next (s.completeError e)
  | .error (.fault f) => .fault f

end Machine
end Sys2Proof
end

