-- ==== Sys2Proof/Machine/Payload.lean ====
section
/-! DEFINITION. Geometry and the payload functions: ValidateDecodeGeometry, DeriveGeometry, Destride
(41_payload_decode.md R130 to R136), EncodeGeometry (40_header_codec.md R114), Restride (42_payload_encode.md R150). -/

namespace Sys2Proof
namespace Machine

/-- The checked decode geometry `(pc, dx, ds, S)` (41_payload_decode.md R130). -/
structure DecodeGeometry where
  pc : Nat
  dx : Nat
  ds : Nat
  stride : Nat
  deriving DecidableEq, Repr

/-- `ValidateDecodeGeometry(H)` with the row stride in strides slot `slot` (41_payload_decode.md R130, R131). -/
def validateDecodeGeometry (slot : Fin 2) (h : Header) : Cmd DecodeGeometry := do
  raiseIf (s32 h.sampleType ≠ 0) .unsupportedSampleType
  let dc := s32 h.dimCount
  raiseIf (dc ≠ 1 ∧ dc ≠ 2) .invalidGeometry
  let pc := s32 h.planeCount
  raiseIf (pc ≤ 0) .invalidGeometry
  let dx := s32 (h.dims 0)
  raiseIf (dx ≤ 0) .invalidGeometry
  raiseIf (dc = 2 ∧ s32 (h.dims 1) ≤ 0) .invalidGeometry
  let ds := s32 h.dataSize
  raiseIf (ds < 0) .invalidGeometry
  let stride := s32 (h.rowStride slot)
  raiseIf (stride ≤ 0 ∨ stride % pc ≠ 0) .invalidGeometry
  return ⟨pc.toNat, dx.toNat, ds.toNat, stride.toNat⟩

/-- The row stride in plane-groups, the filler groups of a row, the groups of a padded row (41_payload_decode.md
R132). -/
structure RowGeometry where
  sg : Nat
  fill : Nat
  block : Nat
  deriving DecidableEq, Repr

/-- `DeriveGeometry(S, pc, dx)` (41_payload_decode.md R132). -/
def deriveGeometry (stride pc dx : Nat) : RowGeometry :=
  let sg := stride / pc
  let fill := (sg - dx % sg) % sg
  ⟨sg, fill, dx + fill⟩

/-- `K`, the number of kept plane-groups among `groups` (41_payload_decode.md R135, R137). -/
def keptCount (groups block dx : Nat) : Nat :=
  groups / block * dx + min (groups % block) dx

/-- `Destride(raw, pc, dx, block)`: the kept plane-groups, in order (41_payload_decode.md R134). -/
def destride (raw : List Byte) (pc dx block : Nat) : List Byte :=
  (List.range (raw.length / pc)).flatMap fun j =>
    if j % block < dx then slice raw (j * pc) pc else []

/-- The checked encode geometry `(pc, dx, dy, n)` (40_header_codec.md R114). -/
structure EncodeGeometry where
  pc : Nat
  dx : Nat
  dy : Nat
  n : Nat
  deriving DecidableEq, Repr

/-- `EncodeGeometry()` over a header image (40_header_codec.md R114). -/
def encodeGeometry (h : Header) : Cmd EncodeGeometry := do
  let pc := s32 h.planeCount
  let dx := s32 (h.dims 0)
  let dy := s32 (h.dims 1)
  raiseIf (pc ≤ 0 ∨ dx ≤ 0 ∨ dy ≤ 0) .invalidGeometry
  let n := dx * dy * pc
  raiseIf (n > i32Max) .invalidGeometry
  return ⟨pc.toNat, dx.toNat, dy.toNat, n.toNat⟩

/-- `Restride(dense, pc, dx, dy)`: each pixel's channel bytes, row by row, no filler (42_payload_encode.md R150). -/
def restride (dense : List Byte) (pc dx dy : Nat) : List Byte :=
  (List.range dy).flatMap fun y =>
    (List.range dx).flatMap fun x => slice dense ((y * dx + x) * pc) pc

/-- The result registers of a payload decode: DESTRIDE with `consumed = ds`, DECODE with `consumed = 296 + ds`
(41_payload_decode.md R137, 43_composite.md R170). -/
def decodeResults (consumed : Nat) (g : DecodeGeometry) (r : RowGeometry) : Results :=
  let groups := g.ds / g.pc
  let kept := keptCount groups r.block g.dx
  { bytesConsumed := u32 consumed
    outLen := u32 (kept * g.pc)
    strideGroups := u32 r.sg
    fill := u32 r.fill
    block := u32 r.block
    keptCount := u32 kept
    skippedCount := u32 (groups - kept) }

/-- The result registers of a payload encode of `g` that wrote `written` bytes (42_payload_encode.md R151,
43_composite.md R171). -/
def encodeResults (written : Nat) (g : EncodeGeometry) : Results :=
  { bytesConsumed := u32 g.n
    outLen := u32 written
    strideGroups := u32 g.dx
    fill := 0
    block := u32 g.dx
    keptCount := u32 (g.dx * g.dy)
    skippedCount := 0 }

end Machine
end Sys2Proof
end

