-- ==== Sys2Proof/Machine/Composite.lean ====
section
/-! DEFINITION. The composite commands: DECODE and ENCODE (43_composite.md). -/

namespace Sys2Proof
namespace Machine

/-- DECODE (43_composite.md R170): the header is a local image until every check has passed. -/
def execDecode (s : State) : Host.Outcome State Fault Refusal :=
  s.finish do
    raiseIf (s.avail < hdrLen) .truncatedHeader
    let f ← s.memRead s.srcOff.toNat hdrLen
    let h := parseHeader f
    let g ← validateDecodeGeometry s.caps.rowStrideSlot h
    raiseIf (s.avail - hdrLen < g.ds) .truncatedPayload
    let r := deriveGeometry g.stride g.pc g.dx
    raiseIf (keptCount (g.ds / g.pc) r.block g.dx * g.pc > s.caps.dstSize.toNat) .dstOverflow
    let raw ← s.memRead (s.srcOff.toNat + hdrLen) g.ds
    return { header := some h, out := destride raw g.pc g.dx r.block, results := decodeResults (hdrLen + g.ds) g r }

/-- ENCODE (43_composite.md R171). -/
def execEncode (s : State) : Host.Outcome State Fault Refusal :=
  s.finish do
    let g ← encodeGeometry s.hrf
    raiseIf (s.avail < g.n) .truncatedPayload
    raiseIf (hdrLen + g.n > s.caps.dstSize.toNat) .dstOverflow
    let h := encodeHeaderImage s.hrf g.pc g.dx g.dy g.n
    let dense ← s.memRead s.srcOff.toNat g.n
    return { header := some h, out := serializeHeader h ++ restride dense g.pc g.dx g.dy,
             results := encodeResults (hdrLen + g.n) g }

end Machine
end Sys2Proof
end

