-- ==== Sys2Proof/Machine/HeaderCodec.lean ====
section
/-! DEFINITION. The header codec commands: DECODE_HEADER and ENCODE_HEADER (40_header_codec.md). -/

namespace Sys2Proof
namespace Machine

/-- DECODE_HEADER (40_header_codec.md R113). -/
def execDecodeHeader (s : State) : Host.Outcome State Fault Refusal :=
  s.finish do
    raiseIf (s.avail < hdrLen) .truncatedHeader
    let f ← s.memRead s.srcOff.toNat hdrLen
    return { header := some (parseHeader f), out := [],
             results := { Results.zero with bytesConsumed := u32 hdrLen } }

/-- ENCODE_HEADER (40_header_codec.md R116). -/
def execEncodeHeader (s : State) : Host.Outcome State Fault Refusal :=
  s.finish do
    let g ← encodeGeometry s.hrf
    raiseIf (s.caps.dstSize.toNat < hdrLen) .dstOverflow
    let h := encodeHeaderImage s.hrf g.pc g.dx g.dy g.n
    return { header := some h, out := serializeHeader h,
             results := { Results.zero with outLen := u32 hdrLen } }

end Machine
end Sys2Proof
end

