-- ==== Sys2Proof/Machine/PayloadDecode.lean ====
section
/-! DEFINITION. The payload decode command: DESTRIDE (41_payload_decode.md). -/

namespace Sys2Proof
namespace Machine

/-- DESTRIDE (41_payload_decode.md R137). -/
def execDestride (s : State) : Host.Outcome State Fault Refusal :=
  s.finish do
    let g ← validateDecodeGeometry s.caps.rowStrideSlot s.hrf
    raiseIf (s.avail < g.ds) .truncatedPayload
    let r := deriveGeometry g.stride g.pc g.dx
    raiseIf (keptCount (g.ds / g.pc) r.block g.dx * g.pc > s.caps.dstSize.toNat) .dstOverflow
    let raw ← s.memRead s.srcOff.toNat g.ds
    return { header := none, out := destride raw g.pc g.dx r.block, results := decodeResults g.ds g r }

end Machine
end Sys2Proof
end

