-- ==== Sys2Proof/Machine/PayloadEncode.lean ====
section
/-! DEFINITION. The payload encode command: RESTRIDE (42_payload_encode.md). -/

namespace Sys2Proof
namespace Machine

/-- RESTRIDE (42_payload_encode.md R151). -/
def execRestride (s : State) : Host.Outcome State Fault Refusal :=
  s.finish do
    let g ← encodeGeometry s.hrf
    raiseIf (s.avail < g.n) .truncatedPayload
    raiseIf (g.n > s.caps.dstSize.toNat) .dstOverflow
    let dense ← s.memRead s.srcOff.toNat g.n
    return { header := none, out := restride dense g.pc g.dx g.dy, results := encodeResults g.n g }

end Machine
end Sys2Proof
end

