-- ==== Sys2Proof/Machine/Dispatch.lean ====
section
/-! DEFINITION. The meaning of each command, one arm per constructor of Instr. -/

namespace Sys2Proof
namespace Machine

/-- The engine's execution of one command on the state in which it is pending (30_encoding.md R84). -/
def exec (i : Instr) (s : State) : Host.Outcome State Fault Refusal :=
  match i with
  | .decodeHeader => Sys2Proof.Machine.execDecodeHeader s
  | .destride => Sys2Proof.Machine.execDestride s
  | .decode => Sys2Proof.Machine.execDecode s
  | .encodeHeader => Sys2Proof.Machine.execEncodeHeader s
  | .restride => Sys2Proof.Machine.execRestride s
  | .encode => Sys2Proof.Machine.execEncode s

end Machine
end Sys2Proof
end

