-- ==== Sys2Proof/Machine/Engine.lean ====
section
/-! DEFINITION. The engine's step (10_state.md R21, R25; 60_exceptions.md R205). -/

namespace Sys2Proof
namespace Machine

/-- The engine's turn. While BUSY = 1 it executes PENDING, the word fixed at the accept (10_state.md R42); a word
that is no command completes with ILLEGAL_COMMAND before anything else is read (60_exceptions.md R205). While
BUSY = 0 it has no step and everything stays (10_state.md R25, 60_exceptions.md R220; log 12). -/
def engineTurn (s : State) : Host.Outcome State Fault Refusal :=
  if s.status.busy then
    match decode s.pending with
    | .ok i => exec i s
    | .error _ => .next (s.completeError .illegalCommand)
  else .next s

end Machine
end Sys2Proof
end

