-- ==== Sys2Proof/Machine/HostPort.lean ====
section
/-! DEFINITION. The host's transactions at the register window, SRC and DST (20_memory.md R60 to R74,
60_exceptions.md R214, 70_reset_and_hazards.md R235 to R237). -/

namespace Sys2Proof
namespace Machine

/-- The register a host access reaches, or the name of its refusal (20_memory.md R64, R68; log 11). -/
def regAccess (width : AccessWidth) (offset : Nat) : Except Refusal Reg :=
  if width ≠ .word then .error .registerAccessWidth
  else if offset % 4 ≠ 0 then .error .registerAccessMisaligned
  else
    match regAt offset with
    | some r => .ok r
    | none => .error .registerOutsideWindow

/-- What a host read-back of a SRC address returns: the byte written there since reset, or a free value, the same
for every read until the next reset (20_memory.md R60, R71; log 7). The same while BUSY = 1: DESIGN CHOICE, log 21. -/
def State.srcReadBack (s : State) (a : Nat) : Byte :=
  (s.src.read a).getD (Config.srcUnwritten s.resetCount a)

/-- What a host read of a DST address returns while BUSY = 0: the byte a command wrote there since reset, or a free
value, the same for every read until the next reset or write (70_reset_and_hazards.md R238; log 5). -/
def State.dstReadBack (s : State) (a : Nat) : Byte :=
  (s.dst.read a).getD (Config.dstUnspecified s.resetCount a)

/-- One host transaction. DESIGN CHOICE: a read-back of SRC while BUSY = 1 is answered as it is while BUSY = 0; the spec
forbids the host only to write SRC then (70_reset_and_hazards.md R236) and states nothing of a read-back (log 21). -/
def hostTurn (t : Transaction) (s : State) : Host.Outcome State Fault Refusal :=
  match t with
  | .regWrite width offset v =>
    match regAccess width offset with
    | .error e => .refused e
    | .ok r => .next (if s.status.busy then s.dropWrite else s.writeReg r v)
  | .regRead width offset =>
    match regAccess width offset with
    | .error e => .refused e
    | .ok r => .next (s.logRead (.reg offset (s.readReg r)))
  | .srcWrite a v =>
    if s.caps.srcSize.toNat ≤ a then .refused .srcAddressOutside
    else if s.status.busy then .refused .srcWriteWhileBusy
    else .next { s with src := s.src.write a v }
  | .srcRead a =>
    if s.caps.srcSize.toNat ≤ a then .refused .srcAddressOutside
    else .next (s.logRead (.src a (s.srcReadBack a)))
  | .dstRead a =>
    if s.caps.dstSize.toNat ≤ a then .refused .dstAddressOutside
    else if s.status.busy then
      .next { s.logRead (.dst a (Config.dstWhileBusy s.draws)) with draws := s.draws + 1 }
    else .next (s.logRead (.dst a (s.dstReadBack a)))

end Machine
end Sys2Proof
end

