-- ==== Sys2Proof/Machine/Step.lean ====
section
/-! DEFINITION. One step of MXC and its surroundings, and the placing of a command where the next step executes it. -/

namespace Sys2Proof
namespace Machine

/-- One step: the next input, or, when none is to come, the engine's turn, so that a busy engine always takes its
step in the end (10_state.md R21, R25; 70_reset_and_hazards.md R230, R250; log 3). -/
def step (s : State) : Host.Outcome State Fault Refusal :=
  match s.inputs with
  | [] => engineTurn s
  | .engineTurn :: rest => engineTurn { s with inputs := rest }
  | .host t :: rest => hostTurn t { s with inputs := rest }
  | .reset :: rest => .next { s with inputs := rest }.resetInput

/-- `s` with the word `w` accepted (60_exceptions.md R209) and the engine's turn next: the very next step executes
that word. MXC fetches nothing (20_memory.md R76); PENDING is where the engine finds its command (log 3). -/
def State.withFetchWord (s : State) (nbits w : Nat) : State :=
  { s.accept (BitVec.ofNat 32 (w % 2 ^ nbits)) with inputs := .engineTurn :: s.inputs }

end Machine
end Sys2Proof
end

