-- ==== Sys2Proof/Machine/HostProgram.lean ====
section
/-! DEFINITION. The notation of host programs as lists of inputs (30_encoding.md R92, R93, R94). -/

namespace Sys2Proof
namespace Machine

/-- The byte offset of a register (20_memory.md R64); the first reserved offset stands for the reserved ones. -/
def Reg.offset : Reg → Nat
  | .cmd => 0x000
  | .status => 0x004
  | .errcode => 0x008
  | .srcOff => 0x00C
  | .srcLen => 0x010
  | .bytesConsumed => 0x014
  | .outLen => 0x018
  | .strideGroups => 0x01C
  | .fill => 0x020
  | .block => 0x024
  | .keptCount => 0x028
  | .skippedCount => 0x02C
  | .srcSizeReg => 0x030
  | .dstSizeReg => 0x034
  | .config => 0x038
  | .reserved => 0x03C
  | .hrf k => 0x100 + 4 * k.val

/-- `W <reg>, <value>` (30_encoding.md R92). -/
def hostW (r : Reg) (v : Word) : Input := .host (.regWrite .word r.offset v)

/-- `R <reg>` (30_encoding.md R92). -/
def hostR (r : Reg) : Input := .host (.regRead .word r.offset)

/-- `SB <addr>, <b0> <b1> ...`: one SRC byte write per byte (30_encoding.md R92). -/
def hostSB (a : Nat) : List Byte → List Input
  | [] => []
  | v :: vs => .host (.srcWrite a v) :: hostSB (a + 1) vs

/-- `DB <addr>, <n>`: one DST byte read per byte (30_encoding.md R92). -/
def hostDB (a : Nat) : Nat → List Input
  | 0 => []
  | n + 1 => .host (.dstRead a) :: hostDB (a + 1) n

/-- `WAIT` after an accept: some number of reads of STATUS that come before the engine's turn, then that turn, then
the read that sees it (30_encoding.md R93; the number is the run's, 70_reset_and_hazards.md R250; log 13). -/
def hostWait (polls : Nat) : List Input :=
  List.replicate polls (hostR .status) ++ [.engineTurn, hostR .status]

/-- `RUN <MNEMONIC>`: the command word to CMD, then `WAIT` (30_encoding.md R93). -/
def hostRun (i : Instr) (polls : Nat) : List Input := hostW .cmd (encode i) :: hostWait polls

/-- `SETSRC <off>, <len>` (30_encoding.md R93). -/
def hostSetSrc (off len : Word) : List Input := [hostW .srcOff off, hostW .srcLen len]

/-- `SETHDR <field>, <value>`, the field given by its HRF word (30_encoding.md R93, 10_state.md R31). -/
def hostSetHdr (k : Fin 74) (v : Word) : Input := hostW (.hrf k) v

/-- `COPYBACK <daddr>, <n>, <saddr>`: the DST reads, then SRC writes of the bytes `got` that the host read
(30_encoding.md R93; the host's own data flow is outside the block, log 17). -/
def hostCopyBack (daddr saddr : Nat) (got : List Byte) : List Input :=
  hostDB daddr got.length ++ hostSB saddr got

end Machine
end Sys2Proof
end

