-- ==== Sys2Proof/Safety.lean ====
section
/-! DEFINITION. The terms claims use: admitted geometry, error conditions and their priority, operands, the invariant of the
machine, and runs. They are written from the rules, beside the meanings and not by calling their checks. -/

namespace Sys2Proof
namespace Machine

/-- The header image `h` passes every check of 41_payload_decode.md R130 and its geometry is `g`. -/
structure DecodeGeometryOk (slot : Fin 2) (h : Header) (g : DecodeGeometry) : Prop where
  sampleType : s32 h.sampleType = 0
  dimCount : s32 h.dimCount = 1 ∨ (s32 h.dimCount = 2 ∧ 0 < s32 (h.dims 1))
  planeCount : s32 h.planeCount = g.pc
  planeCountPos : 0 < g.pc
  width : s32 (h.dims 0) = g.dx
  widthPos : 0 < g.dx
  dataSize : s32 h.dataSize = g.ds
  stride : s32 (h.rowStride slot) = g.stride
  stridePos : 0 < g.stride
  strideWhole : g.pc ∣ g.stride

/-- The header image `h` passes the checks of 40_header_codec.md R114 and its geometry is `g`. -/
structure EncodeGeometryOk (h : Header) (g : EncodeGeometry) : Prop where
  planeCount : s32 h.planeCount = g.pc
  planeCountPos : 0 < g.pc
  width : s32 (h.dims 0) = g.dx
  widthPos : 0 < g.dx
  height : s32 (h.dims 1) = g.dy
  heightPos : 0 < g.dy
  size : g.n = g.dx * g.dy * g.pc
  sizeFits : g.n ≤ 2 ^ 31 - 1

/-- INVALID_GEOMETRY on the decode side (60_exceptions.md R204). -/
def DecodeGeometryBad (slot : Fin 2) (h : Header) : Prop :=
  (s32 h.dimCount ≠ 1 ∧ s32 h.dimCount ≠ 2) ∨ s32 h.planeCount ≤ 0 ∨ s32 (h.dims 0) ≤ 0 ∨
  (s32 h.dimCount = 2 ∧ s32 (h.dims 1) ≤ 0) ∨ s32 h.dataSize < 0 ∨
  s32 (h.rowStride slot) ≤ 0 ∨ ¬ s32 h.planeCount ∣ s32 (h.rowStride slot)

/-- `dims[0]·dims[1]·plane_count`, exact (40_header_codec.md R114). -/
def encodeSize (h : Header) : Int := s32 (h.dims 0) * s32 (h.dims 1) * s32 h.planeCount

/-- INVALID_GEOMETRY on the encode side (60_exceptions.md R204). -/
def EncodeGeometryBad (h : Header) : Prop :=
  s32 h.planeCount ≤ 0 ∨ s32 (h.dims 0) ≤ 0 ∨ s32 (h.dims 1) ≤ 0 ∨ encodeSize h > 2 ^ 31 - 1

/-- `K·plane_count` of an admitted geometry (41_payload_decode.md R137). -/
def keptBytes (g : DecodeGeometry) : Nat :=
  keptCount (g.ds / g.pc) (deriveGeometry g.stride g.pc g.dx).block g.dx * g.pc

/-- The header image a decode works from: the HRF for DESTRIDE, the 296 bytes at SRC_OFF for DECODE
(30_encoding.md R86). -/
def decodesHeader (i : Instr) (s : State) (h : Header) : Prop :=
  (i = .destride ∧ h = s.hrf) ∨
  (i = .decode ∧ ∃ f, s.src.readBytes s.srcOff.toNat 296 = some f ∧ h = parseHeader f)

/-- The SRC bytes available for the payload: all of them for DESTRIDE, those after the header for DECODE
(60_exceptions.md R203). -/
def payloadAvail (i : Instr) (s : State) : Int :=
  if i = .decode then (s.avail : Int) - 296 else s.avail

/-- The commands that encode (40_header_codec.md R114). -/
def encodes (i : Instr) : Prop := i = .encodeHeader ∨ i = .restride ∨ i = .encode

/-- The HRF words a command reads, by number (30_encoding.md R86, 10_state.md R31): for DESTRIDE PLANE_COUNT,
SAMPLE_TYPE, DIM_COUNT, DIMS[0], DIMS[1], the row stride and DATA_SIZE; for the encode commands PLANE_COUNT, DIMS[0] and
DIMS[1], and, where they emit a header, the tags, the sizes and the timestamp. -/
def headerWordsRead (i : Instr) (slot : Fin 2) : List Nat :=
  match i with
  | .decodeHeader | .decode => []
  | .destride => [4, 5, 6, 7, 8, 39 + slot.val, 71]
  | .restride => [4, 7, 8]
  | .encodeHeader | .encode => [0, 1, 2, 3, 4, 7, 8, 72, 73]

/-- How many SRC bytes from SRC_OFF a command reads (30_encoding.md R86). DECODE takes its `data_size` from the header
at SRC_OFF. -/
def bytesRead (i : Instr) (s : State) : Nat :=
  match i with
  | .decodeHeader => 296
  | .destride => (s32 s.hrf.dataSize).toNat
  | .decode =>
    match s.src.readBytes s.srcOff.toNat 296 with
    | some f => 296 + (s32 (parseHeader f).dataSize).toNat
    | none => 296
  | .encodeHeader => 0
  | .restride | .encode => (encodeSize s.hrf).toNat

/-- `s'` has the operands that command `i` reads in `s` (30_encoding.md R86) on the same machine (00_scope.md R8): the
window registers, which all but ENCODE_HEADER read, the HRF words the command reads, and the SRC bytes it reads, which
lie in the window (20_memory.md R78). -/
structure SameOperands (i : Instr) (s s' : State) : Prop where
  caps : s'.caps = s.caps
  srcOff : i ≠ .encodeHeader → s'.srcOff = s.srcOff
  srcLen : i ≠ .encodeHeader → s'.srcLen = s.srcLen
  header : ∀ k : Fin 74, k.val ∈ headerWordsRead i s.caps.rowStrideSlot → s'.hrf[k] = s.hrf[k]
  source : ∀ a, s.srcOff.toNat ≤ a → a < s.srcOff.toNat + bytesRead i s → a < s.srcLen.toNat →
    s'.src.read a = s.src.read a

/-- The conditions under which a command raises an error (60_exceptions.md R201 to R204, R206), one by one and
without regard to their order. An accepted command word is never illegal (R205). -/
def ErrorCondition (i : Instr) (s : State) : ErrorKind → Prop
  | .truncatedHeader => (i = .decodeHeader ∨ i = .decode) ∧ s.avail < 296
  | .unsupportedSampleType => ∃ h, decodesHeader i s h ∧ s32 h.sampleType ≠ 0
  | .invalidGeometry =>
      (∃ h, decodesHeader i s h ∧ DecodeGeometryBad s.caps.rowStrideSlot h) ∨
      (encodes i ∧ EncodeGeometryBad s.hrf)
  | .truncatedPayload =>
      (∃ h, decodesHeader i s h ∧ payloadAvail i s < s32 h.dataSize) ∨
      ((i = .restride ∨ i = .encode) ∧ (s.avail : Int) < encodeSize s.hrf)
  | .dstOverflow =>
      (∃ h g, decodesHeader i s h ∧ DecodeGeometryOk s.caps.rowStrideSlot h g ∧ s.caps.dstSize.toNat < keptBytes g) ∨
      (i = .encodeHeader ∧ s.caps.dstSize.toNat < 296) ∨
      (i = .restride ∧ (s.caps.dstSize.toNat : Int) < encodeSize s.hrf) ∨
      (i = .encode ∧ (s.caps.dstSize.toNat : Int) < 296 + encodeSize s.hrf)
  | .illegalCommand => False

/-- The place of an error kind in the priority order (60_exceptions.md R207), 1 first. -/
def ErrorKind.priority : ErrorKind → Nat
  | .illegalCommand => 1
  | .truncatedHeader => 2
  | .unsupportedSampleType => 3
  | .invalidGeometry => 4
  | .truncatedPayload => 5
  | .dstOverflow => 6

/-- The flags, the registers and the memories agree with one another as the rules say they do in every state of a
run: a premise of statements that would fail only in states no run reaches. -/
structure State.Inv (s : State) : Prop where
  /-- SRC is in canonical form. -/
  srcCanonical : s.src.wf
  /-- DST is in canonical form. -/
  dstCanonical : s.dst.wf
  /-- SRC has no byte at or beyond SRC_SIZE (20_memory.md R61). -/
  srcInside : ∀ c ∈ s.src, c.1 < s.caps.srcSize.toNat
  /-- DST has no byte at or beyond DST_SIZE (20_memory.md R62). -/
  dstInside : ∀ c ∈ s.dst, c.1 < s.caps.dstSize.toNat
  /-- SRC_OFF is clamped (10_state.md R36). -/
  srcOffClamped : s.srcOff.toNat ≤ s.caps.srcSize.toNat
  /-- SRC_LEN is clamped (10_state.md R37). -/
  srcLenClamped : s.srcLen.toNat ≤ s.caps.srcSize.toNat
  /-- While BUSY = 1, PENDING is the word CMD shows (10_state.md R23, R25). -/
  pendingIsCmd : s.status.busy = true → s.pending = s.cmd
  /-- While BUSY = 1, DONE and ERR are 0 (10_state.md R26, 60_exceptions.md R209). -/
  busyClears : s.status.busy = true → s.status.done = false ∧ s.status.err = false
  /-- ERR without DONE does not occur (60_exceptions.md R209 to R211). -/
  errIsDone : s.status.err = true → s.status.done = true
  /-- ERR is 1 exactly when ERRCODE holds an error's code (10_state.md R27, R35). -/
  errHasCode : s.status.err = true ↔ s.errcode ≠ 0
  /-- ERRCODE is at most 6 (60_exceptions.md R200). -/
  codeAssigned : s.errcode.toNat ≤ 6
  /-- After an error the result registers read 0 (60_exceptions.md R210). -/
  errResultsZero : s.status.err = true → s.results = Results.zero
  /-- OUT_LEN never passes the end of DST (20_memory.md R62). -/
  outLenFits : s.results.outLen.toNat ≤ s.caps.dstSize.toNat

/-- `t` is reached from `s` in some number of steps. -/
inductive Reaches : State → State → Prop where
  | refl (s : State) : Reaches s s
  | tail {s t u : State} : Reaches s t → step t = .next u → Reaches s u

/-- The outcome of steps until the inputs are used up: `k` steps of the machine. -/
def stepMany : Nat → State → Host.Outcome State Fault Refusal
  | 0, s => .next s
  | k + 1, s =>
    match step s with
    | .next t => stepMany k t
    | .fault r => .fault r
    | .refused r => .refused r

/-- `s` with these inputs to come. -/
def State.withInputs (s : State) (l : List Input) : State := { s with inputs := l }

end Machine
end Sys2Proof
end

