-- ==== Sys2Proof/WellFormed.lean ====
section
/-! DEFINITION. Well-formedness: of commands, of command words and of host register accesses. -/

namespace Sys2Proof

/-- Every command is well formed: a command word has no register fields and no immediates (30_encoding.md R83). -/
def Instr.wf : Instr → Bool
  | .decodeHeader | .destride | .decode | .encodeHeader | .restride | .encode => true

/-- A command word is well formed when RSVD is 0 and OP is one of the codes 1 to 6 (30_encoding.md R83 to R85). -/
def wfCommandWord (w : Word) : Bool :=
  rsvdField w == 0 && 1 ≤ (opField w).toNat && (opField w).toNat ≤ 6

/-- A register access has a meaning when it is a 32-bit access at a multiple of 4 inside the window of 0x228
bytes (20_memory.md R60, R68). -/
def wfRegAccess (width : Machine.AccessWidth) (offset : Nat) : Bool :=
  width == .word && offset % 4 == 0 && offset < 0x228

end Sys2Proof
end

