-- ==== Sys2Proof/Certificates/Slice0/Obligations.lean ====
section
/-! DEFINITION. The statements for the provers: what the rules of spec/ say the commands, the engine and the host
interface do. -/

open Sys2Proof Sys2Proof.Machine

/-! ### Command words -/

/-- 30_encoding.md R84: a word selects a command exactly when all 32 bits equal the command's word. -/
def Obligations.OneWordSelectsEachCommand : Prop :=
  ∀ (w : Word) (i : Instr), decode w = .ok i ↔
    (i = .decodeHeader ∧ w = 0x00000001#32) ∨ (i = .destride ∧ w = 0x00000002#32) ∨
    (i = .decode ∧ w = 0x00000003#32) ∨ (i = .encodeHeader ∧ w = 0x00000004#32) ∨
    (i = .restride ∧ w = 0x00000005#32) ∨ (i = .encode ∧ w = 0x00000006#32)

/-- 30_encoding.md R84: the six words decode to their commands, and the encoder writes them. -/
def Obligations.SixWordsDecodeAndEncode : Prop :=
  (decodeTableWord 32 1 = some .decodeHeader ∧ decodeTableWord 32 2 = some .destride ∧
   decodeTableWord 32 3 = some .decode ∧ decodeTableWord 32 4 = some .encodeHeader ∧
   decodeTableWord 32 5 = some .restride ∧ decodeTableWord 32 6 = some .encode) ∧
  ∀ i : Instr, i.wf = true → decode (encode i) = .ok i

/-- 60_exceptions.md R205: a pending word that is no command completes with ILLEGAL_COMMAND; nothing but STATUS,
ERRCODE and the result registers changes, whatever SRC and the HRF hold. -/
def Obligations.IllegalWordCompletesWithCode5 : Prop :=
  ∀ s : State, s.status.busy = true → s.inputs = [] →
    s.pending ≠ 0x00000001#32 → s.pending ≠ 0x00000002#32 → s.pending ≠ 0x00000003#32 →
    s.pending ≠ 0x00000004#32 → s.pending ≠ 0x00000005#32 → s.pending ≠ 0x00000006#32 →
    step s = .next { s with
      status := { s.status with busy := false, done := true, err := true }
      errcode := 5
      results := ⟨0, 0, 0, 0, 0, 0, 0⟩ }

/-- A step runs the decoded command (10_state.md R25, R42; 20_memory.md R76), both when nothing else is to come and
when the engine's turn is the next input. When a host transaction is the next input, a step is that transaction, BUSY
or not (10_state.md R21). The input list is the model's own (log 3). -/
def Obligations.StepExecutesPendingCommand : Prop :=
  (∀ (s : State) (i : Instr), s.status.busy = true → decode s.pending = .ok i →
    (s.inputs = [] → step s = exec i s) ∧
    (∀ rest, s.inputs = .engineTurn :: rest → step s = exec i { s with inputs := rest })) ∧
  (∀ (s : State) (x : Transaction) (rest : List Input), s.inputs = .host x :: rest →
    step s = hostTurn x { s with inputs := rest })

/-- The host's way to place a command: the very next step executes it on the state of its accept. -/
def Obligations.PlacedCommandIsExecutedNext : Prop :=
  ∀ (s : State) (i : Instr),
    step (s.withFetchWord 32 (encode i).toNat) =
      exec i { s with
        cmd := encode i
        pending := encode i
        status := { s.status with busy := true, done := false, err := false, wrIgnored := false }
        errcode := 0 }

/-! ### The header codec -/

/-- 40_header_codec.md R112: the header codec loses no bit in either direction. -/
def Obligations.HeaderCodecLosesNoBit : Prop :=
  (∀ f : List Byte, f.length = 296 → serializeHeader (parseHeader f) = f) ∧
  (∀ h : Header, parseHeader (serializeHeader h) = h)

/-- 40_header_codec.md R110: where ParseHeader finds each field, and in which byte order. -/
def Obligations.ParseHeaderReadsEachField : Prop :=
  ∀ f : List Byte, f.length = 296 →
    (parseHeader f).outerTag.toNat = leNat (slice f 0 4) ∧
    (parseHeader f).outerSize.toNat = leNat (slice f 4 4) ∧
    (parseHeader f).innerTag.toNat = leNat (slice f 8 4) ∧
    (parseHeader f).innerSize.toNat = beNat (slice f 12 4) ∧
    (parseHeader f).planeCount.toNat = beNat (slice f 16 4) ∧
    (parseHeader f).sampleType.toNat = beNat (slice f 20 4) ∧
    (parseHeader f).dimCount.toNat = beNat (slice f 24 4) ∧
    (∀ i : Fin 32, ((parseHeader f).dims i).toNat = beNat (slice f (28 + 4 * i.val) 4)) ∧
    (∀ i : Fin 32, ((parseHeader f).strides i).toNat = beNat (slice f (156 + 4 * i.val) 4)) ∧
    (parseHeader f).dataSize.toNat = beNat (slice f 284 4) ∧
    (parseHeader f).timestampHi.toNat = beNat (slice f 288 4) ∧
    (parseHeader f).timestampLo.toNat = beNat (slice f 292 4)

/-- 40_header_codec.md R111: SerializeHeader is the concatenation of the fields' bytes, 296 in all. -/
def Obligations.SerializeHeaderConcatenatesFields : Prop :=
  ∀ h : Header,
    serializeHeader h =
      leBytes 4 h.outerTag.toNat ++ leBytes 4 h.outerSize.toNat ++
      leBytes 4 h.innerTag.toNat ++ beBytes 4 h.innerSize.toNat ++
      beBytes 4 h.planeCount.toNat ++ beBytes 4 h.sampleType.toNat ++ beBytes 4 h.dimCount.toNat ++
      (List.finRange 32).flatMap (fun i => beBytes 4 (h.dims i).toNat) ++
      (List.finRange 32).flatMap (fun i => beBytes 4 (h.strides i).toNat) ++
      beBytes 4 h.dataSize.toNat ++ beBytes 4 h.timestampHi.toNat ++ beBytes 4 h.timestampLo.toNat ∧
    (serializeHeader h).length = 296

/-- 10_state.md R33, R34: tag byte `k` stands at bits `[8k+7:8k]`, and the two timestamp registers are the halves of
the 64-bit pattern of wire bytes 288 to 295. -/
def Obligations.TagLanesAndTimestampHalves : Prop :=
  ∀ f : List Byte, f.length = 296 →
    (∀ k, k < 4 → f[k]? = some ((parseHeader f).outerTag.extractLsb' (8 * k) 8) ∧
      f[8 + k]? = some ((parseHeader f).innerTag.extractLsb' (8 * k) 8)) ∧
    ((parseHeader f).timestampHi ++ (parseHeader f).timestampLo).toNat = beNat (slice f 288 8)

/-- 40_header_codec.md R115: every field of the image the encode commands emit. -/
def Obligations.EncodeHeaderImageFields : Prop :=
  ∀ (hrf : Header) (pc dx dy n : Nat),
    let h := encodeHeaderImage hrf pc dx dy n
    h.outerTag = hrf.outerTag ∧ h.outerSize = hrf.outerSize ∧ h.innerTag = hrf.innerTag ∧
    h.innerSize = hrf.innerSize ∧ h.timestampHi = hrf.timestampHi ∧ h.timestampLo = hrf.timestampLo ∧
    h.planeCount = u32 pc ∧ h.sampleType = 0 ∧ h.dimCount = 2 ∧
    h.dims 0 = u32 dx ∧ h.dims 1 = u32 dy ∧ (∀ i : Fin 32, 2 ≤ i.val → h.dims i = 1) ∧
    h.strides 0 = u32 (pc * dx) ∧ h.strides 1 = u32 (pc * dx) ∧ (∀ i : Fin 32, 2 ≤ i.val → h.strides i = 0) ∧
    h.dataSize = u32 n

/-! ### What each command does when it succeeds -/

/-- DECODE_HEADER (40_header_codec.md R113, 60_exceptions.md R211) completes with a commit whenever 296 written bytes
are available, whatever they are (R118). -/
def Obligations.DecodeHeaderCommitsTheHeader : Prop :=
  ∀ (s : State) (f : List Byte), 296 ≤ s.avail → s.src.readBytes s.srcOff.toNat 296 = some f →
    exec .decodeHeader s = .next { s with
      hrf := parseHeader f
      results := ⟨296, 0, 0, 0, 0, 0, 0⟩
      status := { s.status with busy := false, done := true, err := false, hdrValid := true }
      errcode := 0 }

/-- ENCODE_HEADER (40_header_codec.md R116) completes with a commit whenever the geometry is admitted and DST holds
296 bytes; it reads no SRC. -/
def Obligations.EncodeHeaderCommitsTheImage : Prop :=
  ∀ (s : State) (g : EncodeGeometry), EncodeGeometryOk s.hrf g → 296 ≤ s.caps.dstSize.toNat →
    exec .encodeHeader s = .next { s with
      hrf := encodeHeaderImage s.hrf g.pc g.dx g.dy g.n
      dst := s.dst.writeBytes 0 (serializeHeader (encodeHeaderImage s.hrf g.pc g.dx g.dy g.n))
      results := ⟨0, 296, 0, 0, 0, 0, 0⟩
      status := { s.status with busy := false, done := true, err := false, hdrValid := true }
      errcode := 0 }

/-- DESTRIDE (41_payload_decode.md R137) completes with a commit whenever the geometry is admitted, its payload is
available and written, and the kept bytes fit DST. -/
def Obligations.DestrideCommitsTheKeptGroups : Prop :=
  ∀ (s : State) (g : DecodeGeometry) (raw : List Byte),
    DecodeGeometryOk s.caps.rowStrideSlot s.hrf g → g.ds ≤ s.avail →
    s.src.readBytes s.srcOff.toNat g.ds = some raw →
    let sg := g.stride / g.pc
    let fill := (sg - g.dx % sg) % sg
    let block := g.dx + fill
    let groups := g.ds / g.pc
    let kept := groups / block * g.dx + min (groups % block) g.dx
    kept * g.pc ≤ s.caps.dstSize.toNat →
    exec .destride s = .next { s with
      dst := s.dst.writeBytes 0 (destride raw g.pc g.dx block)
      results := ⟨u32 g.ds, u32 (kept * g.pc), u32 sg, u32 fill, u32 block, u32 kept, u32 (groups - kept)⟩
      status := { s.status with busy := false, done := true, err := false }
      errcode := 0 }

/-- RESTRIDE (42_payload_encode.md R151) completes with a commit whenever the geometry is admitted, its dense bytes
are available and written, and they fit DST; DST gets them unchanged (R150). -/
def Obligations.RestrideCommitsTheDenseBytes : Prop :=
  ∀ (s : State) (g : EncodeGeometry) (dense : List Byte),
    EncodeGeometryOk s.hrf g → g.n ≤ s.avail → g.n ≤ s.caps.dstSize.toNat →
    s.src.readBytes s.srcOff.toNat g.n = some dense →
    exec .restride s = .next { s with
      dst := s.dst.writeBytes 0 dense
      results := ⟨u32 g.n, u32 g.n, u32 g.dx, 0, u32 g.dx, u32 (g.dx * g.dy), 0⟩
      status := { s.status with busy := false, done := true, err := false }
      errcode := 0 }

/-- DECODE (43_composite.md R170) completes with a commit whenever the frame is available and written, its header is
admitted, and the kept bytes fit DST. -/
def Obligations.DecodeCommitsHeaderAndPixels : Prop :=
  ∀ (s : State) (f raw : List Byte) (g : DecodeGeometry),
    s.src.readBytes s.srcOff.toNat 296 = some f →
    DecodeGeometryOk s.caps.rowStrideSlot (parseHeader f) g → 296 + g.ds ≤ s.avail →
    s.src.readBytes (s.srcOff.toNat + 296) g.ds = some raw →
    let sg := g.stride / g.pc
    let fill := (sg - g.dx % sg) % sg
    let block := g.dx + fill
    let groups := g.ds / g.pc
    let kept := groups / block * g.dx + min (groups % block) g.dx
    kept * g.pc ≤ s.caps.dstSize.toNat →
    exec .decode s = .next { s with
      hrf := parseHeader f
      dst := s.dst.writeBytes 0 (destride raw g.pc g.dx block)
      results := ⟨u32 (296 + g.ds), u32 (kept * g.pc), u32 sg, u32 fill, u32 block, u32 kept, u32 (groups - kept)⟩
      status := { s.status with busy := false, done := true, err := false, hdrValid := true }
      errcode := 0 }

/-- ENCODE (43_composite.md R171) completes with a commit whenever the geometry is admitted, its dense bytes are
available and written, and the frame fits DST. -/
def Obligations.EncodeCommitsTheFrame : Prop :=
  ∀ (s : State) (g : EncodeGeometry) (dense : List Byte),
    EncodeGeometryOk s.hrf g → g.n ≤ s.avail → 296 + g.n ≤ s.caps.dstSize.toNat →
    s.src.readBytes s.srcOff.toNat g.n = some dense →
    exec .encode s = .next { s with
      hrf := encodeHeaderImage s.hrf g.pc g.dx g.dy g.n
      dst := s.dst.writeBytes 0 (serializeHeader (encodeHeaderImage s.hrf g.pc g.dx g.dy g.n) ++ dense)
      results := ⟨u32 g.n, u32 (296 + g.n), u32 g.dx, 0, u32 g.dx, u32 (g.dx * g.dy), 0⟩
      status := { s.status with busy := false, done := true, err := false, hdrValid := true }
      errcode := 0 }

/-! ### Errors, frames, progress -/

/-- 60_exceptions.md R207: when several error conditions hold, the first in the priority order is the one reported,
an illegal word before all others. -/
def Obligations.FirstErrorConditionIsReported : Prop :=
  (∀ s : State, s.status.busy = true → (∀ i : Instr, s.pending ≠ encode i) →
    engineTurn s = .next { s with
      status := { s.status with busy := false, done := true, err := true }
      errcode := 5
      results := ⟨0, 0, 0, 0, 0, 0, 0⟩ }) ∧
  (∀ (s : State) (i : Instr) (e : ErrorKind), s.status.busy = true → s.pending = encode i →
    ErrorCondition i s e → (∀ e' : ErrorKind, e'.priority < e.priority → ¬ ErrorCondition i s e') →
    engineTurn s = .next { s with
      status := { s.status with busy := false, done := true, err := true }
      errcode := e.code
      results := ⟨0, 0, 0, 0, 0, 0, 0⟩ })

/-- A command that meets no error condition (60_exceptions.md R201 to R206) and whose window is all written commits;
where it does not, it reached a SRC byte of the window that holds no value, and the model faults (20_memory.md R77). -/
def Obligations.NoErrorConditionMeansCommit : Prop :=
  ∀ (i : Instr) (s : State), (∀ e : ErrorKind, ¬ ErrorCondition i s e) →
    (∃ t, exec i s = .next t ∧ t.status.err = false) ∨
    (exec i s = .fault .unwrittenSrcByte ∧
      ∃ a, s.srcOff.toNat ≤ a ∧ a < s.srcLen.toNat ∧ s.src.read a = none)

/-- 20_memory.md R77: an unwritten byte among those a command reads is a fault: the header bytes for DECODE_HEADER and
DECODE; the payload bytes for DECODE and DESTRIDE, and the dense bytes for RESTRIDE and ENCODE, with an admitted geometry
whose output fits. That a command reads the whole range of 30_encoding.md R86, filler and trailing bytes too, is read
from the MemRead of its pseudocode (log 8). -/
def Obligations.UnwrittenSourceByteFaults : Prop :=
  (∀ (s : State) (k : Nat), 296 ≤ s.avail → k < 296 → s.src.read (s.srcOff.toNat + k) = none →
    exec .decodeHeader s = .fault .unwrittenSrcByte ∧ exec .decode s = .fault .unwrittenSrcByte) ∧
  (∀ (s : State) (f : List Byte) (g : DecodeGeometry) (k : Nat),
    s.src.readBytes s.srcOff.toNat 296 = some f → DecodeGeometryOk s.caps.rowStrideSlot (parseHeader f) g →
    296 + g.ds ≤ s.avail → keptBytes g ≤ s.caps.dstSize.toNat → k < g.ds →
    s.src.read (s.srcOff.toNat + 296 + k) = none →
    exec .decode s = .fault .unwrittenSrcByte) ∧
  (∀ (s : State) (g : DecodeGeometry) (k : Nat), DecodeGeometryOk s.caps.rowStrideSlot s.hrf g → g.ds ≤ s.avail →
    keptBytes g ≤ s.caps.dstSize.toNat → k < g.ds → s.src.read (s.srcOff.toNat + k) = none →
    exec .destride s = .fault .unwrittenSrcByte) ∧
  (∀ (s : State) (g : EncodeGeometry) (k : Nat), EncodeGeometryOk s.hrf g → g.n ≤ s.avail →
    k < g.n → s.src.read (s.srcOff.toNat + k) = none →
    (g.n ≤ s.caps.dstSize.toNat → exec .restride s = .fault .unwrittenSrcByte) ∧
    (296 + g.n ≤ s.caps.dstSize.toNat → exec .encode s = .fault .unwrittenSrcByte))

/-- 60_exceptions.md R210: an error completion changes STATUS, ERRCODE and the result registers, and nothing else:
the HRF, HDR_VALID, DST, SRC, SRC_OFF and SRC_LEN are as they were. -/
def Obligations.ErrorCompletionChangesNothingElse : Prop :=
  ∀ s t : State, s.status.busy = true → engineTurn s = .next t → t.status.err = true →
    ∃ e : ErrorKind, t = { s with
      status := { s.status with busy := false, done := true, err := true }
      errcode := e.code
      results := ⟨0, 0, 0, 0, 0, 0, 0⟩ }

/-- 60_exceptions.md R200, column "raised by": the codes each command can report. -/
def Obligations.CommandsReportOnlyTheirCodes : Prop :=
  ∀ (i : Instr) (s t : State), exec i s = .next t →
    t.errcode ∈ (match i with
      | .decodeHeader => [0, 1]
      | .destride => [0, 2, 3, 4, 6]
      | .decode => [0, 1, 2, 3, 4, 6]
      | .encodeHeader => [0, 3, 6]
      | .restride => [0, 2, 3, 6]
      | .encode => [0, 2, 3, 6] : List Word)

/-- The frame of every command, whether it commits or completes with an error (60_exceptions.md R210, R211; 20_memory.md
R62, R63; 10_state.md R28; 30_encoding.md R86): what it never writes, and DST at or beyond the new OUT_LEN. That PENDING
keeps its word after a completion is the model's choice (log 16): 10_state.md R42 gives it a meaning only while
BUSY = 1. -/
def Obligations.CommandFrame : Prop :=
  ∀ (i : Instr) (s t : State), exec i s = .next t →
    t.cmd = s.cmd ∧ t.pending = s.pending ∧ t.srcOff = s.srcOff ∧ t.srcLen = s.srcLen ∧ t.caps = s.caps ∧
    t.src = s.src ∧ t.inputs = s.inputs ∧ t.hostReads = s.hostReads ∧ t.resetCount = s.resetCount ∧
    t.draws = s.draws ∧ t.status.wrIgnored = s.status.wrIgnored ∧
    (i = .destride ∨ i = .restride → t.hrf = s.hrf ∧ t.status.hdrValid = s.status.hdrValid) ∧
    (i = .decodeHeader → t.dst = s.dst) ∧
    (∀ a, t.results.outLen.toNat ≤ a → t.dst.read a = s.dst.read a)

/-- 20_memory.md R62, R14: the bytes a command writes lie at DST addresses 0 to their count, in order, and no other
address changes. -/
def Obligations.OutputLandsFromAddressZero : Prop :=
  ∀ (m : Memory) (out : List Byte) (a : Nat),
    (m.writeBytes 0 out).read a = if a < out.length then out[a]? else m.read a

/-- A command that commits has consumed only bytes of its window (20_memory.md R78, 10_state.md R38, R39), and every one
held a value: an unwritten byte is a fault (20_memory.md R77), and a command reads the whole range it consumes
(30_encoding.md R86; log 8). -/
def Obligations.ConsumedBytesLieInTheWindow : Prop :=
  ∀ (i : Instr) (s t : State), exec i s = .next t → t.status.err = false →
    t.results.bytesConsumed.toNat ≤ s.avail ∧
    ∀ k, k < t.results.bytesConsumed.toNat → (s.src.read (s.srcOff.toNat + k)).isSome = true

/-- 43_composite.md R174, 30_encoding.md R86, 20_memory.md R63: the outcome of a command depends only on the operands it
reads, `SameOperands`: not on any other HRF word, SRC byte, register or DST byte. A fault is an outcome too. -/
def Obligations.OutcomeDependsOnlyOnOperands : Prop :=
  ∀ (i : Instr) (s s' : State), SameOperands i s s' →
    (∀ r, exec i s = .fault r → exec i s' = .fault r) ∧
    ∀ t, exec i s = .next t →
      ∃ t', exec i s' = .next t' ∧
        t'.status.busy = t.status.busy ∧ t'.status.done = t.status.done ∧ t'.status.err = t.status.err ∧
        t'.errcode = t.errcode ∧ t'.results = t.results ∧
        (t.status.err = false →
          (i ≠ .destride → i ≠ .restride → t'.hrf = t.hrf ∧ t'.status.hdrValid = t.status.hdrValid) ∧
          ∀ a, a < t.results.outLen.toNat → t'.dst.read a = t.dst.read a)

/-- 10_state.md R25, R26, R27; 70_reset_and_hazards.md R250: every accepted word, legal or not, completes at the
engine's turn, if the bytes of the window are written. -/
def Obligations.AcceptedCommandCompletes : Prop :=
  ∀ s : State, s.status.busy = true → s.inputs = [] →
    (∀ a, s.srcOff.toNat ≤ a → a < s.srcLen.toNat → (s.src.read a).isSome = true) →
    ∃ t, step s = .next t ∧ t.status.busy = false ∧ t.status.done = true ∧
      (t.status.err = true ↔ t.errcode ≠ 0)

/-! ### Payload arithmetic -/

/-- 41_payload_decode.md R133: the properties (a) to (f) of the row geometry. -/
def Obligations.RowGeometryProperties : Prop :=
  ∀ stride pc dx : Nat, 0 < pc → 0 < stride → pc ∣ stride → 0 < dx →
    let r := deriveGeometry stride pc dx
    r.sg = stride / pc ∧ r.fill < r.sg ∧ dx ≤ r.block ∧ 1 ≤ r.block ∧ r.block % r.sg = 0 ∧
    (r.sg ∣ dx → r.fill = 0 ∧ r.block = dx) ∧
    (dx ≤ r.sg → r.block = r.sg) ∧
    (r.sg < dx → ∀ m, r.sg ∣ m → dx ≤ m → r.block ≤ m)

/-- 41_payload_decode.md R135: the closed form of the keep/skip rule: how many groups are kept and skipped, how long
the output is, and which payload byte each output byte is. -/
def Obligations.KeptGroupsClosedForm : Prop :=
  ∀ (raw : List Byte) (pc dx block : Nat), 0 < pc → 0 < dx → dx ≤ block →
    let groups := raw.length / pc
    let kept := groups / block * dx + min (groups % block) dx
    ((List.range groups).filter fun j => decide (j % block < dx)).length = kept ∧
    ((List.range groups).filter fun j => decide (¬ j % block < dx)).length = groups - kept ∧
    (destride raw pc dx block).length = kept * pc ∧
    ∀ k c, k < kept → c < pc →
      (destride raw pc dx block)[k * pc + c]? = raw[(k / dx * block + k % dx) * pc + c]?

/-- 41_payload_decode.md R136: the bytes after the last whole plane-group have no part in the output. -/
def Obligations.TrailingBytesAreNotCopied : Prop :=
  ∀ (whole tail : List Byte) (pc dx block groups : Nat), 0 < pc → whole.length = groups * pc → tail.length < pc →
    destride (whole ++ tail) pc dx block = destride whole pc dx block

/-- 41_payload_decode.md R141: with `S = pc·dx` there is no filler and every plane-group is kept. -/
def Obligations.NoPaddingKeepsEveryGroup : Prop :=
  ∀ (raw : List Byte) (pc dx : Nat), 0 < pc → 0 < dx →
    deriveGeometry (pc * dx) pc dx = ⟨dx, 0, dx⟩ ∧
    destride raw pc dx dx = raw.take (raw.length / pc * pc)

/-- 41_payload_decode.md R142: rows `[A, B, C, X]` with `dim_x = 3`, stride 4 and one plane give rows `[A, B, C]`. -/
def Obligations.PaddingByteIsSkippedInEachRow : Prop :=
  deriveGeometry 4 1 3 = ⟨4, 1, 4⟩ ∧
  ∀ (a b c x : Byte) (rows : Nat),
    destride (List.replicate rows [a, b, c, x]).flatten 1 3 4 = (List.replicate rows [a, b, c]).flatten

/-- 41_payload_decode.md R139: with `dim_count = 1`, DESTRIDE neither checks nor uses `dims[1]` (HRF word 8). -/
def Obligations.SecondDimensionUnusedWhenOneDimensional : Prop :=
  ∀ (s t : State) (v : Word), s.hrf.dimCount = 1 → exec .destride s = .next t →
    exec .destride { s with hrf := s.hrf.set 8 v } = .next { t with hrf := t.hrf.set 8 v }

/-- 42_payload_encode.md R150: Restride appends every pixel and no filler: its result is its input. -/
def Obligations.RestrideReturnsItsInput : Prop :=
  ∀ (dense : List Byte) (pc dx dy : Nat), dense.length = dx * dy * pc → restride dense pc dx dy = dense

/-- 42_payload_encode.md R152: what the encoder writes decodes with fill 0 and every group kept, in either slot. -/
def Obligations.EncodedStrideHasNoFill : Prop :=
  ∀ (hrf : Header) (g : EncodeGeometry) (slot : Fin 2), EncodeGeometryOk hrf g →
    DecodeGeometryOk slot (encodeHeaderImage hrf g.pc g.dx g.dy g.n) ⟨g.pc, g.dx, g.n, g.pc * g.dx⟩ ∧
    deriveGeometry (g.pc * g.dx) g.pc g.dx = ⟨g.dx, 0, g.dx⟩ ∧
    keptCount (g.n / g.pc) g.dx g.dx = g.dx * g.dy ∧ g.n / g.pc = g.dx * g.dy

/-- 10_state.md R39: no result value wraps: after a payload decode each register holds its exact value. -/
def Obligations.DecodeResultsAreExact : Prop :=
  ∀ (i : Instr) (s t : State) (h : Header) (g : DecodeGeometry), exec i s = .next t → t.status.err = false →
    decodesHeader i s h → DecodeGeometryOk s.caps.rowStrideSlot h g →
    let r := deriveGeometry g.stride g.pc g.dx
    let groups := g.ds / g.pc
    let kept := keptCount groups r.block g.dx
    t.results.bytesConsumed.toNat = (if i = .decode then 296 else 0) + g.ds ∧
    t.results.outLen.toNat = kept * g.pc ∧ t.results.strideGroups.toNat = r.sg ∧
    t.results.fill.toNat = r.fill ∧ t.results.block.toNat = r.block ∧ t.results.keptCount.toNat = kept ∧
    t.results.skippedCount.toNat + kept = groups

/-! ### The host interface -/

/-- 60_exceptions.md R209: an idle MXC accepts every word written to CMD; the HRF, HDR_VALID, the result registers and
DST are not touched. -/
def Obligations.AcceptStartsTheCommand : Prop :=
  ∀ (s : State) (w : Word), s.status.busy = false →
    hostTurn (.regWrite .word 0x000 w) s = .next { s with
      cmd := w
      pending := w
      status := { s.status with busy := true, done := false, err := false, wrIgnored := false }
      errcode := 0 }

/-- 70_reset_and_hazards.md R235: while BUSY = 1 a register write at any offset of the window changes nothing but
WR_IGNORED. -/
def Obligations.BusyRegisterWriteIsDropped : Prop :=
  ∀ (s : State) (offset : Nat) (v : Word), s.status.busy = true → offset % 4 = 0 → offset < 0x228 →
    hostTurn (.regWrite .word offset v) s = .next { s with status := { s.status with wrIgnored := true } }

/-- 10_state.md R36, R37: SRC_OFF and SRC_LEN store the smaller of the written value and SRC_SIZE. -/
def Obligations.SourceWindowWritesAreClamped : Prop :=
  ∀ (s : State) (v : Word), s.status.busy = false →
    hostTurn (.regWrite .word 0x00C v) s =
      .next { s with srcOff := BitVec.ofNat 32 (min v.toNat s.caps.srcSize.toNat) } ∧
    hostTurn (.regWrite .word 0x010 v) s =
      .next { s with srcLen := BitVec.ofNat 32 (min v.toNat s.caps.srcSize.toNat) }

/-- 10_state.md R30, R32: a host write to HRF word `k` stores the value there, leaves the other words, and clears
HDR_VALID; a read returns it. -/
def Obligations.HeaderWriteStoresAndClearsValid : Prop :=
  ∀ (s : State) (k : Fin 74) (v : Word), s.status.busy = false →
    ∃ h : Header, h[k] = v ∧ (∀ j : Fin 74, j ≠ k → h[j] = s.hrf[j]) ∧
      hostTurn (.regWrite .word (0x100 + 4 * k.val) v) s =
        .next { s with hrf := h, status := { s.status with hdrValid := false } } ∧
      ∀ u : State, u.hrf = h → hostTurn (.regRead .word (0x100 + 4 * k.val)) u =
        .next { u with hostReads := .reg (0x100 + 4 * k.val) v :: u.hostReads }

/-- 20_memory.md R64, R71: an idle MXC ignores a write to STATUS, ERRCODE, a result register, a capability register or
a reserved offset. -/
def Obligations.ReadOnlyWritesAreIgnored : Prop :=
  ∀ (s : State) (offset : Nat) (v : Word), s.status.busy = false → offset % 4 = 0 →
    (offset = 0x004 ∨ offset = 0x008 ∨ (0x014 ≤ offset ∧ offset < 0x100)) →
    hostTurn (.regWrite .word offset v) s = .next s

/-- 20_memory.md R64, R71, R74: what a read of each register returns, BUSY or not, and that it changes nothing. -/
def Obligations.RegisterReadsReturnTheRegister : Prop :=
  ∀ s : State,
    let returns := fun (offset : Nat) (v : Word) =>
      hostTurn (.regRead .word offset) s = .next { s with hostReads := .reg offset v :: s.hostReads }
    returns 0x000 s.cmd ∧ returns 0x008 s.errcode ∧ returns 0x00C s.srcOff ∧ returns 0x010 s.srcLen ∧
    returns 0x014 s.results.bytesConsumed ∧ returns 0x018 s.results.outLen ∧
    returns 0x01C s.results.strideGroups ∧ returns 0x020 s.results.fill ∧ returns 0x024 s.results.block ∧
    returns 0x028 s.results.keptCount ∧ returns 0x02C s.results.skippedCount ∧
    returns 0x030 s.caps.srcSize ∧ returns 0x034 s.caps.dstSize ∧
    returns 0x038 (BitVec.ofNat 32 s.caps.rowStrideSlot.val) ∧
    (∀ k : Fin 74, returns (0x100 + 4 * k.val) s.hrf[k]) ∧
    (∀ offset, offset % 4 = 0 → 0x03C ≤ offset → offset < 0x100 → returns offset 0)

/-- 10_state.md R24: a read of STATUS shows each flag at its bit and 0 in the reserved bits. -/
def Obligations.StatusReadShowsTheFlags : Prop :=
  ∀ s : State, ∃ w : Word,
    hostTurn (.regRead .word 0x004) s = .next { s with hostReads := .reg 0x004 w :: s.hostReads } ∧
    w.getLsbD 0 = s.status.busy ∧ w.getLsbD 1 = s.status.done ∧ w.getLsbD 2 = s.status.err ∧
    w.getLsbD 3 = s.status.hdrValid ∧ w.getLsbD 4 = s.status.wrIgnored ∧
    ∀ i, 5 ≤ i → w.getLsbD i = false

/-- 20_memory.md R68, 60_exceptions.md R214: a register access has a meaning exactly when it is a 32-bit access at a
multiple of 4 inside the window; any other is refused. -/
def Obligations.OnlyWordAccessesHaveAMeaning : Prop :=
  ∀ (s : State) (width : AccessWidth) (offset : Nat) (v : Word),
    (width = .word ∧ offset % 4 = 0 ∧ offset < 0x228 →
      (∃ t, hostTurn (.regWrite width offset v) s = .next t) ∧
      (∃ t, hostTurn (.regRead width offset) s = .next t)) ∧
    (¬ (width = .word ∧ offset % 4 = 0 ∧ offset < 0x228) →
      (∃ r, hostTurn (.regWrite width offset v) s = .refused r) ∧
      (∃ r, hostTurn (.regRead width offset) s = .refused r))

/-- 20_memory.md R60, R61, R71, 60_exceptions.md R214, 70_reset_and_hazards.md R236: a host write to SRC lands at its
address and nowhere else when idle and inside, and is refused while BUSY = 1 or outside. A read-back inside returns the
byte written there and changes nothing else. At an address not written since reset it returns some byte, a free value
(log 7). That it is answered while BUSY = 1 too, and with the same byte, is the model's choice (log 21). -/
def Obligations.SourceWritesLandOrAreRefused : Prop :=
  ∀ (s : State) (a : Nat) (v : Byte),
    (s.status.busy = false → a < s.caps.srcSize.toNat →
      ∃ m : Memory, hostTurn (.srcWrite a v) s = .next { s with src := m } ∧
        m.read a = some v ∧ ∀ b, b ≠ a → m.read b = s.src.read b) ∧
    (s.status.busy = true → ∃ r, hostTurn (.srcWrite a v) s = .refused r) ∧
    (a < s.caps.srcSize.toNat →
      ∃ b : Byte, (∀ w, s.src.read a = some w → b = w) ∧
        hostTurn (.srcRead a) s = .next { s with hostReads := .src a b :: s.hostReads }) ∧
    (s.caps.srcSize.toNat ≤ a →
      (∃ r, hostTurn (.srcWrite a v) s = .refused r) ∧ (∃ r, hostTurn (.srcRead a) s = .refused r))

/-- 20_memory.md R71, R74; 70_reset_and_hazards.md R237, R238; 60_exceptions.md R214: an idle DST read returns the byte
a command wrote, and the same byte again for an unwritten address; a read under BUSY is not refused; an address at or
beyond DST_SIZE is. That an unwritten address keeps its free value from read to read is read from R71 (log 5). -/
def Obligations.DestinationReads : Prop :=
  ∀ (s : State) (a : Nat),
    (s.status.busy = false → a < s.caps.dstSize.toNat →
      ∃ v : Byte, (∀ w, s.dst.read a = some w → v = w) ∧
        ∀ log : List HostRead, hostTurn (.dstRead a) { s with hostReads := log } =
          .next { s with hostReads := .dst a v :: log }) ∧
    (s.status.busy = true → a < s.caps.dstSize.toNat →
      ∃ (v : Byte) (n : Nat), hostTurn (.dstRead a) s =
        .next { s with hostReads := .dst a v :: s.hostReads, draws := n }) ∧
    (s.caps.dstSize.toNat ≤ a → ∃ r, hostTurn (.dstRead a) s = .refused r)

/-- 10_state.md R46 and 70_reset_and_hazards.md R230, R231: the reset input, at any time, BUSY or not, gives every
register its reset value, leaves no byte of SRC or DST, and keeps the constants; nothing completes. PENDING's value 0 and
the model's own fields are the model's choice (logs 2, 3, 4, 9, 19). -/
def Obligations.ResetInputResetsEveryRegister : Prop :=
  ∀ (s : State) (rest : List Input), s.inputs = .reset :: rest →
    ∃ t, step s = .next t ∧ t.cmd = 0 ∧
      t.status = ⟨false, false, false, false, false⟩ ∧ t.errcode = 0 ∧ t.srcOff = 0 ∧ t.srcLen = 0 ∧
      t.results = ⟨0, 0, 0, 0, 0, 0, 0⟩ ∧ (∀ k : Fin 74, t.hrf[k] = 0) ∧ t.caps = s.caps ∧
      (∀ a, t.src.read a = none) ∧ (∀ a, t.dst.read a = none) ∧ t.inputs = rest ∧ t.hostReads = s.hostReads

/-- 10_state.md R46: the state after reset. PENDING's value, which R46 gives as "none", is the model's choice (log 2)
and not stated here. -/
def Obligations.ResetStateHoldsTheResetValues : Prop :=
  State.reset.cmd = 0 ∧ State.reset.status = ⟨false, false, false, false, false⟩ ∧ State.reset.errcode = 0 ∧
  State.reset.srcOff = 0 ∧ State.reset.srcLen = 0 ∧ State.reset.results = ⟨0, 0, 0, 0, 0, 0, 0⟩ ∧
  State.reset.caps = ⟨Config.srcSize, Config.dstSize, Config.rowStrideSlot⟩ ∧
  (∀ k : Fin 74, State.reset.hrf[k] = 0) ∧
  (∀ a, State.reset.src.read a = none) ∧ (∀ a, State.reset.dst.read a = none)

/-- 10_state.md R25, 60_exceptions.md R220: an idle engine has no step, and MXC keeps all its state. That the model
answers the same state rather than none is its choice (log 12). -/
def Obligations.IdleEngineChangesNothing : Prop :=
  ∀ s : State, s.status.busy = false →
    (s.inputs = [] → step s = .next s) ∧
    (∀ rest, s.inputs = .engineTurn :: rest → step s = .next { s with inputs := rest })

/-- 30_encoding.md R93, 70_reset_and_hazards.md R250: WAIT ends: whatever the number of polls before the engine's turn,
each of them reads BUSY = 1, and the last read shows BUSY = 0. -/
def Obligations.WaitEndsWithBusyClear : Prop :=
  ∀ (s : State) (polls : Nat), s.status.busy = true → s.inputs = hostWait polls →
    (∀ a, s.srcOff.toNat ≤ a → a < s.srcLen.toNat → (s.src.read a).isSome = true) →
    ∃ (t : State) (w b : Word), stepMany (polls + 2) s = .next t ∧ t.status.busy = false ∧ t.inputs = [] ∧
      t.hostReads = .reg 0x004 w :: (List.replicate polls (.reg 0x004 b) ++ s.hostReads) ∧
      w.getLsbD 0 = false ∧ b.getLsbD 0 = true

/-- 10_state.md R29: WR_IGNORED is set by a register write while BUSY = 1 and by nothing else, and cleared by an accept
and by reset and by nothing else. -/
def Obligations.WriteIgnoredIsSticky : Prop :=
  ∀ s t : State, step s = .next t →
    (s.status.wrIgnored = false → t.status.wrIgnored = true →
      s.status.busy = true ∧ ∃ offset v rest, s.inputs = .host (.regWrite .word offset v) :: rest) ∧
    (s.status.wrIgnored = true → t.status.wrIgnored = false →
      (s.status.busy = false ∧ ∃ w rest, s.inputs = .host (.regWrite .word 0x000 w) :: rest) ∨
      ∃ rest, s.inputs = .reset :: rest) ∧
    (∀ offset v rest, s.status.busy = true → s.inputs = .host (.regWrite .word offset v) :: rest →
      t.status.wrIgnored = true) ∧
    (∀ w rest, s.status.busy = false → s.inputs = .host (.regWrite .word 0x000 w) :: rest →
      t.status.wrIgnored = false) ∧
    (∀ rest, s.inputs = .reset :: rest → t.status.wrIgnored = false)

/-- 10_state.md R24, R28: HDR_VALID is set only by the successful completion of a header-writing command, and cleared
only by a host write to the HRF or by reset. -/
def Obligations.HeaderValidChangesOnlyAsStated : Prop :=
  ∀ s t : State, step s = .next t →
    (s.status.hdrValid = false → t.status.hdrValid = true →
      s.status.busy = true ∧ t.status.busy = false ∧ t.status.done = true ∧ t.status.err = false ∧
      (s.pending = 0x00000001#32 ∨ s.pending = 0x00000003#32 ∨ s.pending = 0x00000004#32 ∨
        s.pending = 0x00000006#32)) ∧
    (s.status.hdrValid = true → t.status.hdrValid = false →
      (s.status.busy = false ∧ ∃ (k : Fin 74) (v : Word) (rest : List Input),
        s.inputs = .host (.regWrite .word (0x100 + 4 * k.val) v) :: rest) ∨
      ∃ rest, s.inputs = .reset :: rest)

/-- 10_state.md R40: the capability registers are the parameters and never change. -/
def Obligations.CapabilityRegistersAreConstant : Prop :=
  (∀ s t : State, step s = .next t → t.caps = s.caps) ∧
  (∀ t : State, Reaches State.reset t → t.caps = ⟨Config.srcSize, Config.dstSize, Config.rowStrideSlot⟩)

/-- 10_state.md R42: PENDING is meaningful only while BUSY = 1: an idle machine takes the same step whatever it holds. -/
def Obligations.PendingIsNotReadWhileIdle : Prop :=
  ∀ (s : State) (p : Word), s.status.busy = false →
    (∀ t, step s = .next t → ∃ t', step { s with pending := p } = .next t' ∧ { t' with pending := t.pending } = t) ∧
    (∀ r, step s = .refused r → step { s with pending := p } = .refused r) ∧
    (∀ r, step s ≠ .fault r)

/-- 20_memory.md R60, R63: SRC changes only by a host SRC write or reset, and DST only by a command that commits or
reset. -/
def Obligations.MemoriesHaveOneWriterEach : Prop :=
  ∀ s t : State, step s = .next t →
    (t.src ≠ s.src → (∃ a v rest, s.inputs = .host (.srcWrite a v) :: rest) ∨ ∃ rest, s.inputs = .reset :: rest) ∧
    (t.dst ≠ s.dst → (s.status.busy = true ∧ t.status.busy = false ∧ t.status.err = false) ∨
      ∃ rest, s.inputs = .reset :: rest)

/-! ### The invariant -/

/-- The state after reset satisfies the invariant (10_state.md R46). -/
def Obligations.ResetSatisfiesTheInvariant : Prop := State.reset.Inv

/-- Every step keeps the invariant: canonical memories inside their sizes, the clamped window, and flags, codes and
results that agree (20_memory.md R61, R62; 10_state.md R23 to R27, R36, R37; 60_exceptions.md R200, R210). -/
def Obligations.StepKeepsTheInvariant : Prop :=
  ∀ s t : State, s.Inv → step s = .next t → t.Inv

/-! ### Laws of whole commands -/

/-- 43_composite.md R172: decoding a frame that ENCODE built gives back its header image and its dense bytes. -/
def Obligations.EncodeThenDecodeRoundTrip : Prop :=
  ∀ s t u : State, exec .encode s = .next t → t.status.err = false →
    u.caps = s.caps → u.srcOff.toNat + t.results.outLen.toNat ≤ u.srcLen.toNat →
    (∀ k, k < t.results.outLen.toNat → u.src.read (u.srcOff.toNat + k) = t.dst.read k) →
    ∃ v : State, exec .decode u = .next v ∧ v.status.err = false ∧ v.hrf = t.hrf ∧
      v.results.outLen.toNat + 296 = t.results.outLen.toNat ∧
      (∀ k, k < v.results.outLen.toNat → v.dst.read k = s.src.read (s.srcOff.toNat + k)) ∧
      (v.results.keptCount.toNat : Int) = s32 (s.hrf.dims 0) * s32 (s.hrf.dims 1) ∧ v.results.fill = 0

/-- 43_composite.md R173: after a successful DECODE the next frame starts BYTES_CONSUMED = 296 + data_size bytes on; no
byte there was read, so other bytes there and a longer window change nothing; SRC_OFF is not advanced. -/
def Obligations.ChainedFrameStartsAfterTheConsumedBytes : Prop :=
  ∀ (s t : State) (m : Memory) (len : Word), exec .decode s = .next t → t.status.err = false →
    s.srcOff.toNat + t.results.bytesConsumed.toNat ≤ len.toNat →
    (∀ k, k < t.results.bytesConsumed.toNat → m.read (s.srcOff.toNat + k) = s.src.read (s.srcOff.toNat + k)) →
    (t.results.bytesConsumed.toNat : Int) = 296 + s32 t.hrf.dataSize ∧ t.srcOff = s.srcOff ∧
    exec .decode { s with src := m, srcLen := len } = .next { t with src := m, srcLen := len }

/-- 43_composite.md R170, 40_header_codec.md R113, 41_payload_decode.md R137: DECODE does in one command what
DECODE_HEADER, then DESTRIDE at SRC_OFF + 296, do in two, but for BYTES_CONSUMED. -/
def Obligations.SplitDecodeAgreesWithDecode : Prop :=
  ∀ s t : State, exec .decode s = .next t → t.status.err = false →
    ∃ a b : State, exec .decodeHeader s = .next a ∧ a.status.err = false ∧
      exec .destride { a with srcOff := a.srcOff + 296 } = .next b ∧ b.hrf = t.hrf ∧ b.dst = t.dst ∧
      b.status = t.status ∧ b.errcode = t.errcode ∧
      b.results = { t.results with bytesConsumed := t.results.bytesConsumed - 296 }
end

