-- ==== Sys2Proof/Laws/Codec.lean ====
section
/-! SUPPORT. Byte orders and slices: lengths, and each conversion undone by its counterpart. -/

namespace Sys2Proof
namespace Machine

@[simp] theorem hdrLen_eq : hdrLen = 296 := rfl

@[simp] theorem length_leBytes (n v : Nat) : (leBytes n v).length = n := by
  induction n generalizing v with
  | zero => rfl
  | succ n ih => simp [leBytes, ih]

@[simp] theorem length_beBytes (n v : Nat) : (beBytes n v).length = n := by simp [beBytes]

/-- Reading back the bytes of a number gives it modulo their range. -/
theorem leNat_leBytes (n v : Nat) : leNat (leBytes n v) = v % 256 ^ n := by
  induction n generalizing v with
  | zero => simp [leBytes, leNat, Nat.mod_one]
  | succ n ih =>
    rw [leBytes, leNat, ih, BitVec.toNat_ofNat, pow_succ' 256 n]
    exact (Nat.mod_mul (a := 256)).symm

theorem beNat_beBytes (n v : Nat) : beNat (beBytes n v) = v % 256 ^ n := by
  simp [beNat, beBytes, leNat_leBytes]

theorem leNat_lt (bs : List Byte) : leNat bs < 256 ^ bs.length := by
  induction bs with
  | nil => simp [leNat]
  | cons b bs ih =>
    have := b.isLt
    simp only [leNat, List.length_cons, Nat.pow_succ]
    omega

theorem beNat_lt (bs : List Byte) : beNat bs < 256 ^ bs.length := by
  simpa [beNat] using leNat_lt bs.reverse

/-- Writing out the number of a byte sequence gives the sequence. -/
theorem leBytes_leNat (bs : List Byte) : leBytes bs.length (leNat bs) = bs := by
  induction bs with
  | nil => rfl
  | cons b bs ih =>
    have hb := b.isLt
    simp only [leNat, List.length_cons, leBytes]
    rw [show (b.toNat + 256 * leNat bs) / 256 = leNat bs by omega, ih]
    congr 1
    apply BitVec.eq_of_toNat_eq
    simp; omega

theorem beBytes_beNat (bs : List Byte) : beBytes bs.length (beNat bs) = bs := by
  have h := leBytes_leNat bs.reverse
  rw [List.length_reverse] at h
  rw [beBytes, beNat, h, List.reverse_reverse]

theorem length_slice (s : List Byte) (a n : Nat) : (slice s a n).length = min n (s.length - a) := by
  simp [slice]

theorem length_slice_of_le {s : List Byte} {a n : Nat} (h : a + n ≤ s.length) : (slice s a n).length = n := by
  rw [length_slice]; omega

theorem getElem?_slice (s : List Byte) (a n k : Nat) (h : k < n) : (slice s a n)[k]? = s[a + k]? := by
  simp [slice, h]

@[simp] theorem length_wireOfWord (k : Nat) (w : Word) : (wireOfWord k w).length = 4 := by
  unfold wireOfWord; split <;> simp

/-- A header word survives the wire (40_header_codec.md R112). -/
theorem wordOfWire_wireOfWord (k : Nat) (w : Word) : wordOfWire k (wireOfWord k w) = w := by
  have hw := w.isLt
  apply BitVec.eq_of_toNat_eq
  unfold wordOfWire wireOfWord
  split
  · rw [BitVec.toNat_ofNat, leNat_leBytes]; omega
  · rw [BitVec.toNat_ofNat, beNat_beBytes]; omega

/-- Four wire bytes survive the header word (40_header_codec.md R112). -/
theorem wireOfWord_wordOfWire (k : Nat) (bs : List Byte) (h : bs.length = 4) :
    wireOfWord k (wordOfWire k bs) = bs := by
  unfold wordOfWire wireOfWord
  split
  · have := leNat_lt bs
    rw [BitVec.toNat_ofNat, Nat.mod_eq_of_lt (by simpa [h] using this)]
    simpa [h] using leBytes_leNat bs
  · have := beNat_lt bs
    rw [BitVec.toNat_ofNat, Nat.mod_eq_of_lt (by simpa [h] using this)]
    simpa [h] using beBytes_beNat bs

@[simp] theorem getElem_parseHeader (f : List Byte) (k : Nat) (h : k < 74) :
    (parseHeader f)[k] = wordOfWire k (slice f (4 * k) 4) := by simp [parseHeader]

@[simp] theorem getElem_encodeHeaderImage (hrf : Header) (pc dx dy n k : Nat) (h : k < 74) :
    (encodeHeaderImage hrf pc dx dy n)[k] = encodeHeaderWord pc dx dy n k hrf[k] := by
  simp [encodeHeaderImage]

/-- A list of pieces of one length, read at a place. -/
theorem getElem?_flatMap_const {α : Type} (l : List α) (f : α → List Byte) (w : Nat)
    (hf : ∀ a ∈ l, (f a).length = w) (i c : Nat) (hc : c < w) :
    (l.flatMap f)[i * w + c]? = (l[i]?).bind fun a => (f a)[c]? := by
  induction l generalizing i with
  | nil => simp
  | cons a l ih =>
    have ha := hf a (by simp)
    rw [List.flatMap_cons]
    cases i with
    | zero => rw [List.getElem?_append_left (by omega)]; simp
    | succ i =>
      rw [List.getElem?_append_right (by rw [ha, Nat.succ_mul]; omega), ha,
        show (i + 1) * w + c - w = i * w + c by rw [Nat.succ_mul]; omega, ih (fun b hb => hf b (by simp [hb]))]
      simp

theorem length_flatMap_const {α : Type} (l : List α) (f : α → List Byte) (w : Nat)
    (hf : ∀ a ∈ l, (f a).length = w) : (l.flatMap f).length = l.length * w := by
  induction l with
  | nil => simp
  | cons a l ih =>
    rw [List.flatMap_cons, List.length_append, hf a (by simp), ih fun b hb => hf b (by simp [hb]), List.length_cons,
      Nat.succ_mul, Nat.add_comm]

@[simp] theorem length_serializeHeader (h : Header) : (serializeHeader h).length = 296 := by
  rw [serializeHeader, length_flatMap_const _ _ 4 (by simp)]; simp

/-- Byte `c` of header word `k` on the wire. -/
theorem getElem?_serializeHeader (h : Header) (k c : Nat) (hk : k < 74) (hc : c < 4) :
    (serializeHeader h)[4 * k + c]? = (wireOfWord k h[k])[c]? := by
  rw [serializeHeader, Nat.mul_comm, getElem?_flatMap_const _ _ 4 (by simp) _ _ hc]
  simp [hk]

/-- The four wire bytes of header word `k` in the serialised header. -/
theorem slice_serializeHeader (h : Header) (k : Nat) (hk : k < 74) :
    slice (serializeHeader h) (4 * k) 4 = wireOfWord k h[k] := by
  apply List.ext_getElem?
  intro c
  by_cases hc : c < 4
  · rw [getElem?_slice _ _ _ _ hc, getElem?_serializeHeader h k c hk hc]
  · rw [List.getElem?_eq_none (by rw [length_slice]; omega), List.getElem?_eq_none (by simp; omega)]

end Machine
end Sys2Proof
end

