-- ==== Sys2Proof/Laws/Memory.lean ====
section
/-! SUPPORT. What the byte memories do: a read after a write, the canonical form, byte sequences. -/

namespace Sys2Proof
namespace Machine

@[simp] theorem Memory.read_nil (a : Nat) : Memory.read [] a = none := rfl

theorem Memory.read_cons (b : Nat) (v : Byte) (m : Memory) (a : Nat) :
    Memory.read ((b, v) :: m) a = if a = b then some v else Memory.read m a := rfl

/-- An address below every listed one holds no value. -/
theorem Memory.read_eq_none_of_lt {m : Memory} {a : Nat} (h : ∀ c ∈ m, a < c.1) : Memory.read m a = none := by
  induction m with
  | nil => rfl
  | cons c m ih =>
    have hc := h c (by simp)
    rw [Memory.read_cons, if_neg (by omega), ih fun d hd => h d (by simp [hd])]

/-- An address holds a value exactly when it is listed. -/
theorem Memory.isSome_read_iff (m : Memory) (a : Nat) : (Memory.read m a).isSome ↔ ∃ c ∈ m, c.1 = a := by
  induction m with
  | nil => simp
  | cons c m ih =>
    rw [Memory.read_cons]
    split
    · simp_all
    · rw [ih]
      have : ¬ c.1 = a := fun h => by simp_all
      simp [this]

/-- A write is seen at its address and nowhere else. -/
theorem Memory.read_write (m : Memory) (a b : Nat) (v : Byte) :
    Memory.read (Memory.write m a v) b = if b = a then some v else Memory.read m b := by
  induction m with
  | nil => simp [Memory.write, Memory.read_cons]
  | cons c m ih =>
    obtain ⟨d, w⟩ := c
    simp only [Memory.write]
    split
    · rw [Memory.read_cons]
    · split
      · next h => subst h; by_cases hb : b = a <;> simp [Memory.read_cons, hb]
      · next h =>
        rw [Memory.read_cons, Memory.read_cons, ih]
        by_cases hb : b = d
        · simp [hb, Ne.symm h]
        · simp [hb]

/-- The entries after a write: the old ones and the written one. -/
theorem Memory.mem_write {m : Memory} {a : Nat} {v : Byte} {c : Host.Cell} (h : c ∈ Memory.write m a v) :
    c = (a, v) ∨ c ∈ m := by
  induction m with
  | nil => simpa [Memory.write] using h
  | cons d m ih =>
    obtain ⟨e, w⟩ := d
    simp only [Memory.write] at h
    split at h
    · simpa using h
    · split at h
      · simp at h ⊢; tauto
      · simp at h ⊢
        rcases h with h | h
        · tauto
        · have := ih h; tauto

/-- A write keeps the canonical form. -/
theorem Memory.wf_write {m : Memory} (h : Memory.wf m) (a : Nat) (v : Byte) : Memory.wf (Memory.write m a v) := by
  induction m with
  | nil => simp [Memory.write]
  | cons c m ih =>
    obtain ⟨d, w⟩ := c
    obtain ⟨h1, h2⟩ := List.pairwise_cons.mp h
    simp only [Memory.write]
    split
    · next hlt =>
      refine List.pairwise_cons.mpr ⟨fun c hc => ?_, h⟩
      rcases List.mem_cons.mp hc with rfl | hc
      · exact hlt
      · exact Nat.lt_trans hlt (h1 c hc)
    · split
      · next heq => subst heq; exact List.pairwise_cons.mpr ⟨h1, h2⟩
      · refine List.pairwise_cons.mpr ⟨fun c hc => ?_, ih h2⟩
        rcases Memory.mem_write hc with rfl | hc
        · simp; omega
        · exact h1 c hc

/-- Writing a sequence keeps the canonical form. -/
theorem Memory.wf_writeBytes {m : Memory} (h : Memory.wf m) (a : Nat) (bs : List Byte) :
    Memory.wf (Memory.writeBytes m a bs) := by
  induction bs generalizing a with
  | nil => exact h
  | cons b bs ih => exact Memory.wf_write (ih (a + 1)) a b

/-- The entries after writing a sequence lie in it or were there before. -/
theorem Memory.mem_writeBytes {m : Memory} {a : Nat} {bs : List Byte} {c : Host.Cell}
    (h : c ∈ Memory.writeBytes m a bs) : (a ≤ c.1 ∧ c.1 < a + bs.length) ∨ c ∈ m := by
  induction bs generalizing a with
  | nil => exact .inr h
  | cons b bs ih =>
    rcases Memory.mem_write h with rfl | h
    · simp
    · rcases ih h with h | h
      · simp; omega
      · exact .inr h

/-- A written sequence is seen at its addresses and nowhere else. -/
theorem Memory.read_writeBytes (m : Memory) (a b : Nat) (bs : List Byte) :
    Memory.read (Memory.writeBytes m a bs) b =
      if a ≤ b ∧ b < a + bs.length then bs[b - a]? else Memory.read m b := by
  induction bs generalizing a with
  | nil => simp [Memory.writeBytes]
  | cons v vs ih =>
    rw [Memory.writeBytes, Memory.read_write, ih]
    by_cases h : b = a
    · simp [h]
    · rw [if_neg h]
      by_cases h2 : a + 1 ≤ b ∧ b < a + 1 + vs.length
      · rw [if_pos h2, if_pos (by simp; omega)]
        obtain ⟨k, rfl⟩ : ∃ k, b = a + 1 + k := ⟨b - (a + 1), by omega⟩
        rw [show a + 1 + k - a = k + 1 by omega, show a + 1 + k - (a + 1) = k by omega]
        simp
      · rw [if_neg h2, if_neg (by simp; omega)]

/-- What reading a sequence answers, byte by byte. -/
theorem Memory.readBytes_eq_some_iff (m : Memory) (a n : Nat) (bs : List Byte) :
    Memory.readBytes m a n = some bs ↔ bs.length = n ∧ ∀ k, k < n → Memory.read m (a + k) = bs[k]? := by
  induction n generalizing a bs with
  | zero => simp only [Memory.readBytes, Option.some.injEq]; constructor
            · rintro rfl; simp
            · rintro ⟨h, -⟩; exact (List.length_eq_zero_iff.mp h).symm
  | succ n ih =>
    simp only [Memory.readBytes]
    constructor
    · intro h
      split at h
      · next v vs hv hvs =>
        obtain rfl := Option.some.inj h
        obtain ⟨hl, hr⟩ := (ih _ _).mp hvs
        refine ⟨by simp [hl], fun k hk => ?_⟩
        cases k with
        | zero => simpa using hv
        | succ k => rw [show a + (k + 1) = a + 1 + k by omega, hr k (by omega)]; simp
      · simp at h
    · rintro ⟨hl, hr⟩
      cases bs with
      | nil => simp at hl
      | cons v vs =>
        have h0 := hr 0 (by omega)
        have h1 : Memory.readBytes m (a + 1) n = some vs :=
          (ih _ _).mpr ⟨by simpa using hl, fun k hk => by
            have := hr (k + 1) (by omega)
            rw [show a + 1 + k = a + (k + 1) by omega, this]; simp⟩
        simp only [Nat.add_zero, List.getElem?_cons_zero] at h0
        rw [h0, h1]

theorem Memory.length_readBytes {m : Memory} {a n : Nat} {bs : List Byte} (h : Memory.readBytes m a n = some bs) :
    bs.length = n := ((Memory.readBytes_eq_some_iff ..).mp h).1

/-- Both memories of the state after reset are canonical. -/
theorem reset_memories_wf : State.reset.src.wf ∧ State.reset.dst.wf := ⟨.nil, .nil⟩

/-- Reading a sequence answers exactly when each of its bytes holds a value. -/
theorem Memory.isSome_readBytes_iff (m : Memory) (a n : Nat) :
    (Memory.readBytes m a n).isSome ↔ ∀ k, k < n → (Memory.read m (a + k)).isSome := by
  induction n generalizing a with
  | zero => simp [Memory.readBytes]
  | succ n ih =>
    constructor
    · intro h k hk
      obtain ⟨bs, hbs⟩ := Option.isSome_iff_exists.mp h
      obtain ⟨hl, hr⟩ := (Memory.readBytes_eq_some_iff ..).mp hbs
      rw [hr k hk, List.getElem?_eq_getElem (by omega)]; rfl
    · intro h
      obtain ⟨v, hv⟩ := Option.isSome_iff_exists.mp (h 0 (by omega))
      obtain ⟨vs, hvs⟩ := Option.isSome_iff_exists.mp ((ih (a + 1)).mpr fun k hk => by
        have := h (k + 1) (by omega)
        rwa [show a + 1 + k = a + (k + 1) by omega])
      simp only [Nat.add_zero] at hv
      simp [Memory.readBytes, hv, hvs]

/-- Two memories that agree on a range answer the same sequence. -/
theorem Memory.readBytes_congr {m m' : Memory} {a a' n : Nat}
    (h : ∀ k, k < n → Memory.read m (a + k) = Memory.read m' (a' + k)) :
    Memory.readBytes m a n = Memory.readBytes m' a' n := by
  induction n generalizing a a' with
  | zero => rfl
  | succ n ih =>
    have h0 := h 0 (by omega)
    simp only [Nat.add_zero] at h0
    have h1 := ih (a := a + 1) (a' := a' + 1) fun k hk => by
      have := h (k + 1) (by omega)
      rwa [show a + 1 + k = a + (k + 1) by omega, show a' + 1 + k = a' + (k + 1) by omega]
    simp only [Memory.readBytes, h0, h1]

end Machine
end Sys2Proof
end

