-- ==== Sys2Proof/Laws/State.lean ====
section
/-! SUPPORT. One lemma for each field of each update of the state, and of each update of the flags. -/

namespace Sys2Proof
namespace Machine

@[simp] theorem Status.accepted_busy (f : Status) : (f.accepted).busy = true := rfl
@[simp] theorem Status.accepted_done (f : Status) : (f.accepted).done = false := rfl
@[simp] theorem Status.accepted_err (f : Status) : (f.accepted).err = false := rfl
@[simp] theorem Status.accepted_hdrValid (f : Status) : (f.accepted).hdrValid = f.hdrValid := rfl
@[simp] theorem Status.accepted_wrIgnored (f : Status) : (f.accepted).wrIgnored = false := rfl

@[simp] theorem Status.failed_busy (f : Status) : (f.failed).busy = false := rfl
@[simp] theorem Status.failed_done (f : Status) : (f.failed).done = true := rfl
@[simp] theorem Status.failed_err (f : Status) : (f.failed).err = true := rfl
@[simp] theorem Status.failed_hdrValid (f : Status) : (f.failed).hdrValid = f.hdrValid := rfl
@[simp] theorem Status.failed_wrIgnored (f : Status) : (f.failed).wrIgnored = f.wrIgnored := rfl

@[simp] theorem Status.succeeded_busy (f : Status) (b : Bool) : (f.succeeded b).busy = false := rfl
@[simp] theorem Status.succeeded_done (f : Status) (b : Bool) : (f.succeeded b).done = true := rfl
@[simp] theorem Status.succeeded_err (f : Status) (b : Bool) : (f.succeeded b).err = false := rfl
@[simp] theorem Status.succeeded_hdrValid (f : Status) (b : Bool) : (f.succeeded b).hdrValid = (b || f.hdrValid) := rfl
@[simp] theorem Status.succeeded_wrIgnored (f : Status) (b : Bool) : (f.succeeded b).wrIgnored = f.wrIgnored := rfl

@[simp] theorem Status.writeDropped_busy (f : Status) : (f.writeDropped).busy = f.busy := rfl
@[simp] theorem Status.writeDropped_done (f : Status) : (f.writeDropped).done = f.done := rfl
@[simp] theorem Status.writeDropped_err (f : Status) : (f.writeDropped).err = f.err := rfl
@[simp] theorem Status.writeDropped_hdrValid (f : Status) : (f.writeDropped).hdrValid = f.hdrValid := rfl
@[simp] theorem Status.writeDropped_wrIgnored (f : Status) : (f.writeDropped).wrIgnored = true := rfl

@[simp] theorem Status.headerTouched_busy (f : Status) : (f.headerTouched).busy = f.busy := rfl
@[simp] theorem Status.headerTouched_done (f : Status) : (f.headerTouched).done = f.done := rfl
@[simp] theorem Status.headerTouched_err (f : Status) : (f.headerTouched).err = f.err := rfl
@[simp] theorem Status.headerTouched_hdrValid (f : Status) : (f.headerTouched).hdrValid = false := rfl
@[simp] theorem Status.headerTouched_wrIgnored (f : Status) : (f.headerTouched).wrIgnored = f.wrIgnored := rfl

@[simp] theorem Status.reset_busy : Status.reset.busy = false := rfl
@[simp] theorem Status.reset_done : Status.reset.done = false := rfl
@[simp] theorem Status.reset_err : Status.reset.err = false := rfl
@[simp] theorem Status.reset_hdrValid : Status.reset.hdrValid = false := rfl
@[simp] theorem Status.reset_wrIgnored : Status.reset.wrIgnored = false := rfl

@[simp] theorem State.accept_cmd (s : State) (w : Word) : (s.accept w).cmd = w := rfl
@[simp] theorem State.accept_status (s : State) (w : Word) : (s.accept w).status = s.status.accepted := rfl
@[simp] theorem State.accept_errcode (s : State) (w : Word) : (s.accept w).errcode = 0 := rfl
@[simp] theorem State.accept_srcOff (s : State) (w : Word) : (s.accept w).srcOff = s.srcOff := rfl
@[simp] theorem State.accept_srcLen (s : State) (w : Word) : (s.accept w).srcLen = s.srcLen := rfl
@[simp] theorem State.accept_results (s : State) (w : Word) : (s.accept w).results = s.results := rfl
@[simp] theorem State.accept_caps (s : State) (w : Word) : (s.accept w).caps = s.caps := rfl
@[simp] theorem State.accept_hrf (s : State) (w : Word) : (s.accept w).hrf = s.hrf := rfl
@[simp] theorem State.accept_pending (s : State) (w : Word) : (s.accept w).pending = w := rfl
@[simp] theorem State.accept_src (s : State) (w : Word) : (s.accept w).src = s.src := rfl
@[simp] theorem State.accept_dst (s : State) (w : Word) : (s.accept w).dst = s.dst := rfl
@[simp] theorem State.accept_inputs (s : State) (w : Word) : (s.accept w).inputs = s.inputs := rfl
@[simp] theorem State.accept_hostReads (s : State) (w : Word) : (s.accept w).hostReads = s.hostReads := rfl
@[simp] theorem State.accept_resetCount (s : State) (w : Word) : (s.accept w).resetCount = s.resetCount := rfl
@[simp] theorem State.accept_draws (s : State) (w : Word) : (s.accept w).draws = s.draws := rfl

@[simp] theorem State.dropWrite_cmd (s : State) : (s.dropWrite).cmd = s.cmd := rfl
@[simp] theorem State.dropWrite_status (s : State) : (s.dropWrite).status = s.status.writeDropped := rfl
@[simp] theorem State.dropWrite_errcode (s : State) : (s.dropWrite).errcode = s.errcode := rfl
@[simp] theorem State.dropWrite_srcOff (s : State) : (s.dropWrite).srcOff = s.srcOff := rfl
@[simp] theorem State.dropWrite_srcLen (s : State) : (s.dropWrite).srcLen = s.srcLen := rfl
@[simp] theorem State.dropWrite_results (s : State) : (s.dropWrite).results = s.results := rfl
@[simp] theorem State.dropWrite_caps (s : State) : (s.dropWrite).caps = s.caps := rfl
@[simp] theorem State.dropWrite_hrf (s : State) : (s.dropWrite).hrf = s.hrf := rfl
@[simp] theorem State.dropWrite_pending (s : State) : (s.dropWrite).pending = s.pending := rfl
@[simp] theorem State.dropWrite_src (s : State) : (s.dropWrite).src = s.src := rfl
@[simp] theorem State.dropWrite_dst (s : State) : (s.dropWrite).dst = s.dst := rfl
@[simp] theorem State.dropWrite_inputs (s : State) : (s.dropWrite).inputs = s.inputs := rfl
@[simp] theorem State.dropWrite_hostReads (s : State) : (s.dropWrite).hostReads = s.hostReads := rfl
@[simp] theorem State.dropWrite_resetCount (s : State) : (s.dropWrite).resetCount = s.resetCount := rfl
@[simp] theorem State.dropWrite_draws (s : State) : (s.dropWrite).draws = s.draws := rfl

@[simp] theorem State.logRead_cmd (s : State) (r : HostRead) : (s.logRead r).cmd = s.cmd := rfl
@[simp] theorem State.logRead_status (s : State) (r : HostRead) : (s.logRead r).status = s.status := rfl
@[simp] theorem State.logRead_errcode (s : State) (r : HostRead) : (s.logRead r).errcode = s.errcode := rfl
@[simp] theorem State.logRead_srcOff (s : State) (r : HostRead) : (s.logRead r).srcOff = s.srcOff := rfl
@[simp] theorem State.logRead_srcLen (s : State) (r : HostRead) : (s.logRead r).srcLen = s.srcLen := rfl
@[simp] theorem State.logRead_results (s : State) (r : HostRead) : (s.logRead r).results = s.results := rfl
@[simp] theorem State.logRead_caps (s : State) (r : HostRead) : (s.logRead r).caps = s.caps := rfl
@[simp] theorem State.logRead_hrf (s : State) (r : HostRead) : (s.logRead r).hrf = s.hrf := rfl
@[simp] theorem State.logRead_pending (s : State) (r : HostRead) : (s.logRead r).pending = s.pending := rfl
@[simp] theorem State.logRead_src (s : State) (r : HostRead) : (s.logRead r).src = s.src := rfl
@[simp] theorem State.logRead_dst (s : State) (r : HostRead) : (s.logRead r).dst = s.dst := rfl
@[simp] theorem State.logRead_inputs (s : State) (r : HostRead) : (s.logRead r).inputs = s.inputs := rfl
@[simp] theorem State.logRead_hostReads (s : State) (r : HostRead) : (s.logRead r).hostReads = r :: s.hostReads := rfl
@[simp] theorem State.logRead_resetCount (s : State) (r : HostRead) : (s.logRead r).resetCount = s.resetCount := rfl
@[simp] theorem State.logRead_draws (s : State) (r : HostRead) : (s.logRead r).draws = s.draws := rfl

@[simp] theorem State.completeError_cmd (s : State) (e : ErrorKind) : (s.completeError e).cmd = s.cmd := rfl
@[simp] theorem State.completeError_status (s : State) (e : ErrorKind) : (s.completeError e).status = s.status.failed := rfl
@[simp] theorem State.completeError_errcode (s : State) (e : ErrorKind) : (s.completeError e).errcode = e.code := rfl
@[simp] theorem State.completeError_srcOff (s : State) (e : ErrorKind) : (s.completeError e).srcOff = s.srcOff := rfl
@[simp] theorem State.completeError_srcLen (s : State) (e : ErrorKind) : (s.completeError e).srcLen = s.srcLen := rfl
@[simp] theorem State.completeError_results (s : State) (e : ErrorKind) : (s.completeError e).results = Results.zero := rfl
@[simp] theorem State.completeError_caps (s : State) (e : ErrorKind) : (s.completeError e).caps = s.caps := rfl
@[simp] theorem State.completeError_hrf (s : State) (e : ErrorKind) : (s.completeError e).hrf = s.hrf := rfl
@[simp] theorem State.completeError_pending (s : State) (e : ErrorKind) : (s.completeError e).pending = s.pending := rfl
@[simp] theorem State.completeError_src (s : State) (e : ErrorKind) : (s.completeError e).src = s.src := rfl
@[simp] theorem State.completeError_dst (s : State) (e : ErrorKind) : (s.completeError e).dst = s.dst := rfl
@[simp] theorem State.completeError_inputs (s : State) (e : ErrorKind) : (s.completeError e).inputs = s.inputs := rfl
@[simp] theorem State.completeError_hostReads (s : State) (e : ErrorKind) : (s.completeError e).hostReads = s.hostReads := rfl
@[simp] theorem State.completeError_resetCount (s : State) (e : ErrorKind) : (s.completeError e).resetCount = s.resetCount := rfl
@[simp] theorem State.completeError_draws (s : State) (e : ErrorKind) : (s.completeError e).draws = s.draws := rfl

@[simp] theorem State.completeSuccess_cmd (s : State) (c : Commit) : (s.completeSuccess c).cmd = s.cmd := rfl
@[simp] theorem State.completeSuccess_status (s : State) (c : Commit) : (s.completeSuccess c).status = s.status.succeeded c.header.isSome := rfl
@[simp] theorem State.completeSuccess_errcode (s : State) (c : Commit) : (s.completeSuccess c).errcode = 0 := rfl
@[simp] theorem State.completeSuccess_srcOff (s : State) (c : Commit) : (s.completeSuccess c).srcOff = s.srcOff := rfl
@[simp] theorem State.completeSuccess_srcLen (s : State) (c : Commit) : (s.completeSuccess c).srcLen = s.srcLen := rfl
@[simp] theorem State.completeSuccess_results (s : State) (c : Commit) : (s.completeSuccess c).results = c.results := rfl
@[simp] theorem State.completeSuccess_caps (s : State) (c : Commit) : (s.completeSuccess c).caps = s.caps := rfl
@[simp] theorem State.completeSuccess_hrf (s : State) (c : Commit) : (s.completeSuccess c).hrf = c.header.getD s.hrf := rfl
@[simp] theorem State.completeSuccess_pending (s : State) (c : Commit) : (s.completeSuccess c).pending = s.pending := rfl
@[simp] theorem State.completeSuccess_src (s : State) (c : Commit) : (s.completeSuccess c).src = s.src := rfl
@[simp] theorem State.completeSuccess_dst (s : State) (c : Commit) : (s.completeSuccess c).dst = Memory.writeBytes s.dst 0 c.out := rfl
@[simp] theorem State.completeSuccess_inputs (s : State) (c : Commit) : (s.completeSuccess c).inputs = s.inputs := rfl
@[simp] theorem State.completeSuccess_hostReads (s : State) (c : Commit) : (s.completeSuccess c).hostReads = s.hostReads := rfl
@[simp] theorem State.completeSuccess_resetCount (s : State) (c : Commit) : (s.completeSuccess c).resetCount = s.resetCount := rfl
@[simp] theorem State.completeSuccess_draws (s : State) (c : Commit) : (s.completeSuccess c).draws = s.draws := rfl

@[simp] theorem State.withInputs_cmd (s : State) (l : List Input) : (s.withInputs l).cmd = s.cmd := rfl
@[simp] theorem State.withInputs_status (s : State) (l : List Input) : (s.withInputs l).status = s.status := rfl
@[simp] theorem State.withInputs_errcode (s : State) (l : List Input) : (s.withInputs l).errcode = s.errcode := rfl
@[simp] theorem State.withInputs_srcOff (s : State) (l : List Input) : (s.withInputs l).srcOff = s.srcOff := rfl
@[simp] theorem State.withInputs_srcLen (s : State) (l : List Input) : (s.withInputs l).srcLen = s.srcLen := rfl
@[simp] theorem State.withInputs_results (s : State) (l : List Input) : (s.withInputs l).results = s.results := rfl
@[simp] theorem State.withInputs_caps (s : State) (l : List Input) : (s.withInputs l).caps = s.caps := rfl
@[simp] theorem State.withInputs_hrf (s : State) (l : List Input) : (s.withInputs l).hrf = s.hrf := rfl
@[simp] theorem State.withInputs_pending (s : State) (l : List Input) : (s.withInputs l).pending = s.pending := rfl
@[simp] theorem State.withInputs_src (s : State) (l : List Input) : (s.withInputs l).src = s.src := rfl
@[simp] theorem State.withInputs_dst (s : State) (l : List Input) : (s.withInputs l).dst = s.dst := rfl
@[simp] theorem State.withInputs_inputs (s : State) (l : List Input) : (s.withInputs l).inputs = l := rfl
@[simp] theorem State.withInputs_hostReads (s : State) (l : List Input) : (s.withInputs l).hostReads = s.hostReads := rfl
@[simp] theorem State.withInputs_resetCount (s : State) (l : List Input) : (s.withInputs l).resetCount = s.resetCount := rfl
@[simp] theorem State.withInputs_draws (s : State) (l : List Input) : (s.withInputs l).draws = s.draws := rfl

@[simp] theorem State.resetInput_cmd (s : State) : (s.resetInput).cmd = 0 := rfl
@[simp] theorem State.resetInput_status (s : State) : (s.resetInput).status = Status.reset := rfl
@[simp] theorem State.resetInput_errcode (s : State) : (s.resetInput).errcode = 0 := rfl
@[simp] theorem State.resetInput_srcOff (s : State) : (s.resetInput).srcOff = 0 := rfl
@[simp] theorem State.resetInput_srcLen (s : State) : (s.resetInput).srcLen = 0 := rfl
@[simp] theorem State.resetInput_results (s : State) : (s.resetInput).results = Results.zero := rfl
@[simp] theorem State.resetInput_caps (s : State) : (s.resetInput).caps = s.caps := rfl
@[simp] theorem State.resetInput_hrf (s : State) : (s.resetInput).hrf = Vector.replicate 74 0 := rfl
@[simp] theorem State.resetInput_pending (s : State) : (s.resetInput).pending = 0 := rfl
@[simp] theorem State.resetInput_src (s : State) : (s.resetInput).src = [] := rfl
@[simp] theorem State.resetInput_dst (s : State) : (s.resetInput).dst = [] := rfl
@[simp] theorem State.resetInput_inputs (s : State) : (s.resetInput).inputs = s.inputs := rfl
@[simp] theorem State.resetInput_hostReads (s : State) : (s.resetInput).hostReads = s.hostReads := rfl
@[simp] theorem State.resetInput_resetCount (s : State) : (s.resetInput).resetCount = s.resetCount + 1 := rfl
@[simp] theorem State.resetInput_draws (s : State) : (s.resetInput).draws = s.draws := rfl

@[simp] theorem State.accept_avail (s : State) (w : Word) : (s.accept w).avail = s.avail := rfl
@[simp] theorem State.dropWrite_avail (s : State) : (s.dropWrite).avail = s.avail := rfl
@[simp] theorem State.logRead_avail (s : State) (r : HostRead) : (s.logRead r).avail = s.avail := rfl
@[simp] theorem State.completeError_avail (s : State) (e : ErrorKind) : (s.completeError e).avail = s.avail := rfl
@[simp] theorem State.completeSuccess_avail (s : State) (c : Commit) : (s.completeSuccess c).avail = s.avail := rfl
@[simp] theorem State.withInputs_avail (s : State) (l : List Input) : (s.withInputs l).avail = s.avail := rfl

end Machine
end Sys2Proof
end

