-- ==== Sys2Proof/Laws/Commands.lean ====
section
/-! SUPPORT. What the shared operations of the commands can do: checks, reads of SRC, geometry, the end of a command. -/

namespace Sys2Proof
namespace Machine

/-! ### The pieces of a command's pseudocode -/

@[simp] theorem raiseIf_eq_ok_iff {p : Prop} {d : Decidable p} (e : ErrorKind) (u : Unit) :
    @raiseIf p d e = .ok u ↔ ¬ p := by
  unfold raiseIf; split <;> simp_all

@[simp] theorem raiseIf_eq_error_iff {p : Prop} {d : Decidable p} (e : ErrorKind) (x : Stop) :
    @raiseIf p d e = .error x ↔ p ∧ x = .raise e := by
  unfold raiseIf; split <;> simp_all [eq_comm]

theorem raiseIf_pos {p : Prop} {d : Decidable p} (h : p) (e : ErrorKind) : @raiseIf p d e = .error (.raise e) := by
  simp [raiseIf, h]

theorem raiseIf_neg {p : Prop} {d : Decidable p} (h : ¬ p) (e : ErrorKind) : @raiseIf p d e = .ok () := by
  simp [raiseIf, h]

/-- A sequence of two parts answers a value when both do. -/
theorem Cmd.bind_eq_ok_iff {α β : Type} (x : Cmd α) (f : α → Cmd β) (b : β) :
    (x >>= f) = .ok b ↔ ∃ a, x = .ok a ∧ f a = .ok b := by
  cases x <;> simp [bind, Except.bind]

/-- A sequence of two parts ends early when one of them does. -/
theorem Cmd.bind_eq_error_iff {α β : Type} (x : Cmd α) (f : α → Cmd β) (e : Stop) :
    (x >>= f) = .error e ↔ x = .error e ∨ ∃ a, x = .ok a ∧ f a = .error e := by
  cases x <;> simp [bind, Except.bind]

@[simp] theorem Cmd.ok_bind {α β : Type} (a : α) (f : α → Cmd β) : ((.ok a : Cmd α) >>= f) = f a := rfl

@[simp] theorem Cmd.error_bind {α β : Type} (e : Stop) (f : α → Cmd β) : ((.error e : Cmd α) >>= f) = .error e := rfl

@[simp] theorem Cmd.pure_eq {α : Type} (a : α) : (pure a : Cmd α) = .ok a := rfl

@[simp] theorem memRead_eq_ok_iff (s : State) (a n : Nat) (bs : List Byte) :
    s.memRead a n = .ok bs ↔ s.src.readBytes a n = some bs := by
  unfold State.memRead; split <;> simp_all

@[simp] theorem memRead_eq_error_iff (s : State) (a n : Nat) (x : Stop) :
    s.memRead a n = .error x ↔ s.src.readBytes a n = none ∧ x = .fault .unwrittenSrcByte := by
  unfold State.memRead; split <;> next h => simp [h, eq_comm]

/-- The end of a command: commit, error completion or fault. -/
theorem finish_eq_next_iff (s t : State) (c : Cmd Commit) :
    s.finish c = .next t ↔
      (∃ k, c = .ok k ∧ t = s.completeSuccess k) ∨ (∃ e, c = .error (.raise e) ∧ t = s.completeError e) := by
  unfold State.finish; split <;> simp_all [eq_comm]

theorem finish_eq_fault_iff (s : State) (c : Cmd Commit) (r : Fault) :
    s.finish c = .fault r ↔ c = .error (.fault r) := by
  unfold State.finish; split <;> simp_all

theorem finish_ne_refused (s : State) (c : Cmd Commit) (r : Refusal) : s.finish c ≠ .refused r := by
  unfold State.finish; split <;> simp

@[simp] theorem finish_ok (s : State) (k : Commit) : s.finish (.ok k) = .next (s.completeSuccess k) := rfl

@[simp] theorem finish_raise (s : State) (e : ErrorKind) :
    s.finish (.error (.raise e)) = .next (s.completeError e) := rfl

@[simp] theorem finish_fault (s : State) (r : Fault) : s.finish (.error (.fault r)) = .fault r := rfl

/-! ### Geometry -/

/-- ValidateDecodeGeometry answers exactly the admitted geometry (41_payload_decode.md R130). -/
theorem validateDecodeGeometry_eq_ok_iff (slot : Fin 2) (h : Header) (g : DecodeGeometry) :
    validateDecodeGeometry slot h = .ok g ↔ DecodeGeometryOk slot h g := by
  simp only [validateDecodeGeometry, Cmd.bind_eq_ok_iff, raiseIf_eq_ok_iff, Cmd.pure_eq, Except.ok.injEq, exists_const,
    not_not, not_and_or, not_or, not_le, not_lt]
  constructor
  · rintro ⟨h1, h2, h3, h4, h5, h6, h7, rfl⟩
    refine ⟨h1, ?_, ?_, ?_, ?_, ?_, ?_, ?_, ?_, ?_⟩
    · omega
    · simp; omega
    · simp; omega
    · simp; omega
    · simp; omega
    · simp; omega
    · simp; omega
    · simp; omega
    · have := Int.dvd_of_emod_eq_zero h7.2
      simp only
      rw [← Int.natCast_dvd_natCast, Int.toNat_of_nonneg (by omega), Int.toNat_of_nonneg (by omega)]
      exact this
  · intro k
    obtain ⟨k1, k2, k3, k4, k5, k6, k7, k8, k9, k10⟩ := k
    have : (g.stride : Int) % g.pc = 0 := by
      rw [← Int.natCast_emod, Nat.mod_eq_zero_of_dvd k10]; rfl
    refine ⟨k1, by omega, by omega, by omega, by omega, by omega, ?_, ?_⟩
    · rw [k8, k3]; exact ⟨by omega, this⟩
    · rw [k3, k5, k7, k8]; simp

/-- ValidateDecodeGeometry ends with UNSUPPORTED_SAMPLE_TYPE first, then with INVALID_GEOMETRY (R130, R204). -/
theorem validateDecodeGeometry_eq_error_iff (slot : Fin 2) (h : Header) (x : Stop) :
    validateDecodeGeometry slot h = .error x ↔
      (s32 h.sampleType ≠ 0 ∧ x = .raise .unsupportedSampleType) ∨
      (s32 h.sampleType = 0 ∧ DecodeGeometryBad slot h ∧ x = .raise .invalidGeometry) := by
  by_cases h0 : s32 h.sampleType = 0
  swap
  · simp [validateDecodeGeometry, raiseIf_pos, h0, eq_comm]
  simp only [h0, ne_eq, not_true_eq_false, false_and, true_and, false_or]
  by_cases hb : DecodeGeometryBad slot h
  · simp only [hb, true_and]
    have key : validateDecodeGeometry slot h = .error (.raise .invalidGeometry) := by
      cases hv : validateDecodeGeometry slot h with
      | ok g =>
        have k := (validateDecodeGeometry_eq_ok_iff ..).mp hv
        obtain ⟨k1, k2, k3, k4, k5, k6, k7, k8, k9, k10⟩ := k
        have hd : s32 h.planeCount ∣ s32 (h.rowStride slot) := by
          rw [k3, k8]; exact Int.natCast_dvd_natCast.mpr k10
        rcases hb with hb | hb | hb | hb | hb | hb | hb
        · omega
        · omega
        · omega
        · omega
        · omega
        · omega
        · exact absurd hd hb
      | error y =>
        simp only [validateDecodeGeometry, Cmd.bind_eq_error_iff, raiseIf_eq_error_iff, h0] at hv
        simp at hv
        rcases hv with hv | ⟨-, hv | ⟨-, hv | ⟨-, hv | ⟨-, hv | ⟨-, hv⟩⟩⟩⟩⟩ <;> simp_all
    rw [key]; simp [eq_comm]
  · simp only [hb, false_and, iff_false]
    simp only [DecodeGeometryBad, not_or, not_not] at hb
    obtain ⟨b1, b2, b3, b4, b5, b6, b7⟩ := hb
    have : validateDecodeGeometry slot h = .ok ⟨(s32 h.planeCount).toNat, (s32 (h.dims 0)).toNat,
        (s32 h.dataSize).toNat, (s32 (h.rowStride slot)).toNat⟩ := by
      rw [validateDecodeGeometry_eq_ok_iff]
      refine ⟨h0, by omega, by simp; omega, by simp; omega, by simp; omega, by simp; omega, by simp; omega,
        by simp; omega, by simp; omega, ?_⟩
      rw [← Int.natCast_dvd_natCast]
      simp only
      rw [Int.toNat_of_nonneg (by omega), Int.toNat_of_nonneg (by omega)]
      exact b7
    rw [this]; simp

/-- EncodeGeometry answers exactly the admitted geometry (40_header_codec.md R114). -/
theorem encodeGeometry_eq_ok_iff (h : Header) (g : EncodeGeometry) :
    encodeGeometry h = .ok g ↔ EncodeGeometryOk h g := by
  simp only [encodeGeometry, Cmd.bind_eq_ok_iff, raiseIf_eq_ok_iff, Cmd.pure_eq, Except.ok.injEq, exists_const,
    not_or, not_le, not_lt, i32Max, gt_iff_lt]
  constructor
  · rintro ⟨⟨h1, h2, h3⟩, h4, rfl⟩
    have hn : ((s32 (h.dims 0) * s32 (h.dims 1) * s32 h.planeCount).toNat : Int) =
        s32 (h.dims 0) * s32 (h.dims 1) * s32 h.planeCount := Int.toNat_of_nonneg (by positivity)
    refine ⟨by simp; omega, by simp; omega, by simp; omega, by simp; omega, by simp; omega, by simp; omega, ?_, ?_⟩
    · simp only
      rw [← Int.natCast_inj]
      push_cast
      rw [hn, Int.toNat_of_nonneg (by omega), Int.toNat_of_nonneg (by omega), Int.toNat_of_nonneg (by omega)]
    · simp only; omega
  · rintro ⟨k1, k2, k3, k4, k5, k6, k7, k8⟩
    rw [k1, k3, k5]
    have : (g.dx : Int) * g.dy * g.pc = g.n := by rw [k7]; push_cast; rfl
    refine ⟨by omega, by omega, ?_⟩
    rw [this]; simp

/-- EncodeGeometry ends early with INVALID_GEOMETRY only (40_header_codec.md R114, 60_exceptions.md R204). -/
theorem encodeGeometry_eq_error_iff (h : Header) (x : Stop) :
    encodeGeometry h = .error x ↔ EncodeGeometryBad h ∧ x = .raise .invalidGeometry := by
  simp only [encodeGeometry, Cmd.bind_eq_error_iff, raiseIf_eq_error_iff, raiseIf_eq_ok_iff, EncodeGeometryBad,
    encodeSize, i32Max]
  simp only [Cmd.pure_eq, reduceCtorEq, and_false, exists_false, or_false]
  constructor
  · rintro (⟨h1, rfl⟩ | ⟨-, h1, h2, rfl⟩)
    · exact ⟨by tauto, rfl⟩
    · exact ⟨.inr (.inr (.inr (by omega))), rfl⟩
  · rintro ⟨h1, rfl⟩
    by_cases h2 : s32 h.planeCount ≤ 0 ∨ s32 (h.dims 0) ≤ 0 ∨ s32 (h.dims 1) ≤ 0
    · exact .inl ⟨h2, rfl⟩
    · exact .inr ⟨(), h2, by omega, rfl⟩

/-! ### What each command commits -/

/-- The commit of a command, and what the command has checked before it. -/
def Commits (i : Instr) (s : State) (c : Commit) : Prop :=
  match i with
  | .decodeHeader => ∃ f, 296 ≤ s.avail ∧ s.src.readBytes s.srcOff.toNat 296 = some f ∧
      c = ⟨some (parseHeader f), [], { Results.zero with bytesConsumed := 296 }⟩
  | .destride => ∃ g raw, DecodeGeometryOk s.caps.rowStrideSlot s.hrf g ∧ g.ds ≤ s.avail ∧
      keptBytes g ≤ s.caps.dstSize.toNat ∧ s.src.readBytes s.srcOff.toNat g.ds = some raw ∧
      c = ⟨none, destride raw g.pc g.dx (deriveGeometry g.stride g.pc g.dx).block,
        decodeResults g.ds g (deriveGeometry g.stride g.pc g.dx)⟩
  | .decode => ∃ f g raw, 296 ≤ s.avail ∧ s.src.readBytes s.srcOff.toNat 296 = some f ∧
      DecodeGeometryOk s.caps.rowStrideSlot (parseHeader f) g ∧ g.ds ≤ s.avail - 296 ∧
      keptBytes g ≤ s.caps.dstSize.toNat ∧ s.src.readBytes (s.srcOff.toNat + 296) g.ds = some raw ∧
      c = ⟨some (parseHeader f), destride raw g.pc g.dx (deriveGeometry g.stride g.pc g.dx).block,
        decodeResults (296 + g.ds) g (deriveGeometry g.stride g.pc g.dx)⟩
  | .encodeHeader => ∃ g, EncodeGeometryOk s.hrf g ∧ 296 ≤ s.caps.dstSize.toNat ∧
      c = ⟨some (encodeHeaderImage s.hrf g.pc g.dx g.dy g.n),
        serializeHeader (encodeHeaderImage s.hrf g.pc g.dx g.dy g.n), { Results.zero with outLen := 296 }⟩
  | .restride => ∃ g dense, EncodeGeometryOk s.hrf g ∧ g.n ≤ s.avail ∧ g.n ≤ s.caps.dstSize.toNat ∧
      s.src.readBytes s.srcOff.toNat g.n = some dense ∧
      c = ⟨none, restride dense g.pc g.dx g.dy, encodeResults g.n g⟩
  | .encode => ∃ g dense, EncodeGeometryOk s.hrf g ∧ g.n ≤ s.avail ∧ 296 + g.n ≤ s.caps.dstSize.toNat ∧
      s.src.readBytes s.srcOff.toNat g.n = some dense ∧
      c = ⟨some (encodeHeaderImage s.hrf g.pc g.dx g.dy g.n),
        serializeHeader (encodeHeaderImage s.hrf g.pc g.dx g.dy g.n) ++ restride dense g.pc g.dx g.dy,
        encodeResults (296 + g.n) g⟩

/-- The error kinds a command can raise (60_exceptions.md R200, column "raised by"). -/
def Raises (i : Instr) (e : ErrorKind) : Prop :=
  match i with
  | .decodeHeader => e = .truncatedHeader
  | .destride => e = .unsupportedSampleType ∨ e = .invalidGeometry ∨ e = .truncatedPayload ∨ e = .dstOverflow
  | .decode => e = .truncatedHeader ∨ e = .unsupportedSampleType ∨ e = .invalidGeometry ∨ e = .truncatedPayload ∨
      e = .dstOverflow
  | .encodeHeader => e = .invalidGeometry ∨ e = .dstOverflow
  | .restride => e = .invalidGeometry ∨ e = .truncatedPayload ∨ e = .dstOverflow
  | .encode => e = .invalidGeometry ∨ e = .truncatedPayload ∨ e = .dstOverflow

/-- Everything a command that goes on can do: one commit after its checks, or one error completion. -/
theorem exec_cases {i : Instr} {s t : State} (h : exec i s = .next t) :
    (∃ c, Commits i s c ∧ t = s.completeSuccess c) ∨ (∃ e, Raises i e ∧ t = s.completeError e) := by
  cases i with
  | decodeHeader =>
    simp only [exec, execDecodeHeader, finish_eq_next_iff, Cmd.bind_eq_ok_iff, Cmd.bind_eq_error_iff, raiseIf_eq_ok_iff,
      raiseIf_eq_error_iff, memRead_eq_ok_iff, memRead_eq_error_iff, Cmd.pure_eq, hdrLen] at h
    rcases h with ⟨c, ⟨-, h1, f, h2, h3⟩, rfl⟩ | ⟨e, h1, rfl⟩
    · exact .inl ⟨c, ⟨f, by omega, h2, (Except.ok.inj h3).symm⟩, rfl⟩
    · exact .inr ⟨e, by simp at h1; exact h1.2, rfl⟩
  | destride =>
    simp only [exec, execDestride, finish_eq_next_iff, Cmd.bind_eq_ok_iff, Cmd.bind_eq_error_iff, raiseIf_eq_ok_iff,
      raiseIf_eq_error_iff, memRead_eq_ok_iff, memRead_eq_error_iff, Cmd.pure_eq, validateDecodeGeometry_eq_ok_iff,
      validateDecodeGeometry_eq_error_iff] at h
    rcases h with ⟨c, ⟨g, h1, -, h2, -, h3, raw, h4, h5⟩, rfl⟩ | ⟨e, h1, rfl⟩
    · exact .inl ⟨c, ⟨g, raw, h1, by omega, by simpa [keptBytes] using h3, h4, (Except.ok.inj h5).symm⟩, rfl⟩
    · refine .inr ⟨e, ?_, rfl⟩
      simp at h1
      rcases h1 with (h1 | h1) | ⟨g, -, h1 | ⟨-, h1⟩⟩ <;> simp [Raises, h1]
  | decode =>
    simp only [exec, execDecode, finish_eq_next_iff, Cmd.bind_eq_ok_iff, Cmd.bind_eq_error_iff, raiseIf_eq_ok_iff,
      raiseIf_eq_error_iff, memRead_eq_ok_iff, memRead_eq_error_iff, Cmd.pure_eq, validateDecodeGeometry_eq_ok_iff,
      validateDecodeGeometry_eq_error_iff, hdrLen] at h
    rcases h with ⟨c, ⟨-, h0, f, hf, g, h1, -, h2, -, h3, raw, h4, h5⟩, rfl⟩ | ⟨e, h1, rfl⟩
    · exact .inl ⟨c, ⟨f, g, raw, by omega, hf, h1, by omega, by simpa [keptBytes] using h3, h4,
        (Except.ok.inj h5).symm⟩, rfl⟩
    · refine .inr ⟨e, ?_, rfl⟩
      simp at h1
      rcases h1 with h1 | ⟨-, f, -, (h1 | h1) | ⟨g, -, h1 | ⟨-, h1⟩⟩⟩ <;> simp [Raises, h1]
  | encodeHeader =>
    simp only [exec, execEncodeHeader, finish_eq_next_iff, Cmd.bind_eq_ok_iff, Cmd.bind_eq_error_iff,
      raiseIf_eq_ok_iff, raiseIf_eq_error_iff, Cmd.pure_eq, encodeGeometry_eq_ok_iff, encodeGeometry_eq_error_iff,
      hdrLen] at h
    rcases h with ⟨c, ⟨g, h1, -, h2, h3⟩, rfl⟩ | ⟨e, h1, rfl⟩
    · exact .inl ⟨c, ⟨g, h1, by omega, (Except.ok.inj h3).symm⟩, rfl⟩
    · refine .inr ⟨e, ?_, rfl⟩
      simp at h1
      rcases h1 with h1 | ⟨g, -, h1⟩ <;> simp [Raises, h1]
  | restride =>
    simp only [exec, execRestride, finish_eq_next_iff, Cmd.bind_eq_ok_iff, Cmd.bind_eq_error_iff,
      raiseIf_eq_ok_iff, raiseIf_eq_error_iff, memRead_eq_ok_iff, memRead_eq_error_iff, Cmd.pure_eq,
      encodeGeometry_eq_ok_iff, encodeGeometry_eq_error_iff] at h
    rcases h with ⟨c, ⟨g, h1, -, h2, -, h3, dense, h4, h5⟩, rfl⟩ | ⟨e, h1, rfl⟩
    · exact .inl ⟨c, ⟨g, dense, h1, by omega, by omega, h4, (Except.ok.inj h5).symm⟩, rfl⟩
    · refine .inr ⟨e, ?_, rfl⟩
      simp at h1
      rcases h1 with h1 | ⟨g, -, h1 | ⟨-, h1⟩⟩ <;> simp [Raises, h1]
  | encode =>
    simp only [exec, execEncode, finish_eq_next_iff, Cmd.bind_eq_ok_iff, Cmd.bind_eq_error_iff,
      raiseIf_eq_ok_iff, raiseIf_eq_error_iff, memRead_eq_ok_iff, memRead_eq_error_iff, Cmd.pure_eq,
      encodeGeometry_eq_ok_iff, encodeGeometry_eq_error_iff, hdrLen] at h
    rcases h with ⟨c, ⟨g, h1, -, h2, -, h3, dense, h4, h5⟩, rfl⟩ | ⟨e, h1, rfl⟩
    · exact .inl ⟨c, ⟨g, dense, h1, by omega, by omega, h4, (Except.ok.inj h5).symm⟩, rfl⟩
    · refine .inr ⟨e, ?_, rfl⟩
      simp at h1
      rcases h1 with h1 | ⟨g, -, h1 | ⟨-, h1⟩⟩ <;> simp [Raises, h1]

/-- A command whose checks pass and whose bytes are written completes with that commit. -/
theorem exec_of_commits {i : Instr} {s : State} {c : Commit} (h : Commits i s c) :
    exec i s = .next (s.completeSuccess c) := by
  cases i with
  | decodeHeader =>
    obtain ⟨f, h1, h2, rfl⟩ := h
    have h2' := (memRead_eq_ok_iff s _ _ _).mpr h2
    simp only [exec, execDecodeHeader, raiseIf_neg (show ¬ s.avail < hdrLen by unfold hdrLen; omega), h2', Cmd.ok_bind,
      Cmd.pure_eq, finish_ok]
    rfl
  | destride =>
    obtain ⟨g, raw, h1, h2, h3, h4, rfl⟩ := h
    have h1' := (validateDecodeGeometry_eq_ok_iff _ _ _).mpr h1
    have h4' := (memRead_eq_ok_iff s _ _ _).mpr h4
    simp only [exec, execDestride, h1', raiseIf_neg (show ¬ s.avail < g.ds by omega), h4', Cmd.ok_bind,
      Cmd.pure_eq, finish_ok, raiseIf_neg (show ¬ (keptCount (g.ds / g.pc) (deriveGeometry g.stride g.pc g.dx).block g.dx
        * g.pc > s.caps.dstSize.toNat) by simpa [keptBytes] using h3)]
  | decode =>
    obtain ⟨f, g, raw, h0, hf, h1, h2, h3, h4, rfl⟩ := h
    have hf' := (memRead_eq_ok_iff s _ _ _).mpr hf
    have h1' := (validateDecodeGeometry_eq_ok_iff _ _ _).mpr h1
    have h4' := (memRead_eq_ok_iff s _ _ _).mpr h4
    simp only [exec, execDecode, h1', hf', raiseIf_neg (show ¬ s.avail < hdrLen by unfold hdrLen; omega),
      raiseIf_neg (show ¬ s.avail - hdrLen < g.ds by unfold hdrLen; omega), h4', Cmd.ok_bind,
      Cmd.pure_eq, finish_ok, raiseIf_neg (show ¬ (keptCount (g.ds / g.pc) (deriveGeometry g.stride g.pc g.dx).block g.dx
        * g.pc > s.caps.dstSize.toNat) by simpa [keptBytes] using h3)]
  | encodeHeader =>
    obtain ⟨g, h1, h2, rfl⟩ := h
    have h1' := (encodeGeometry_eq_ok_iff _ _).mpr h1
    simp only [exec, execEncodeHeader, h1', raiseIf_neg (show ¬ s.caps.dstSize.toNat < hdrLen by unfold hdrLen; omega),
      Cmd.ok_bind, Cmd.pure_eq, finish_ok]
    rfl
  | restride =>
    obtain ⟨g, d, h1, h2, h3, h4, rfl⟩ := h
    have h1' := (encodeGeometry_eq_ok_iff _ _).mpr h1
    have h4' := (memRead_eq_ok_iff s _ _ _).mpr h4
    simp only [exec, execRestride, h1', raiseIf_neg (show ¬ s.avail < g.n by omega), h4', Cmd.ok_bind, Cmd.pure_eq, finish_ok,
      raiseIf_neg (show ¬ (g.n > s.caps.dstSize.toNat) by omega)]
  | encode =>
    obtain ⟨g, d, h1, h2, h3, h4, rfl⟩ := h
    have h1' := (encodeGeometry_eq_ok_iff _ _).mpr h1
    have h4' := (memRead_eq_ok_iff s _ _ _).mpr h4
    simp only [exec, execEncode, h1', raiseIf_neg (show ¬ s.avail < g.n by omega), h4', Cmd.ok_bind, Cmd.pure_eq, finish_ok,
      raiseIf_neg (show ¬ (hdrLen + g.n > s.caps.dstSize.toNat) by unfold hdrLen; omega)]

/-- A command is never refused. -/
theorem exec_ne_refused (i : Instr) (s : State) (r : Refusal) : exec i s ≠ .refused r := by
  cases i <;> exact finish_ne_refused s _ r

end Machine
end Sys2Proof
end

