-- ==== Sys2Proof/Laws/PerInstr.lean ====
section
/-! SUPPORT. Families of statements about every command, one lemma per constructor of Instr. -/

namespace Sys2Proof
namespace Laws

/-- A command is well formed, and so is the word the encoder writes for it (30_encoding.md R83 to R85). -/
def CommandWord.Statement (i : Instr) : Prop := i.wf = true ∧ wfCommandWord (encode i) = true

theorem CommandWord.decodeHeader : CommandWord.Statement .decodeHeader := by unfold CommandWord.Statement; decide

theorem CommandWord.destride : CommandWord.Statement .destride := by unfold CommandWord.Statement; decide

theorem CommandWord.decode : CommandWord.Statement .decode := by unfold CommandWord.Statement; decide

theorem CommandWord.encodeHeader : CommandWord.Statement .encodeHeader := by unfold CommandWord.Statement; decide

theorem CommandWord.restride : CommandWord.Statement .restride := by unfold CommandWord.Statement; decide

theorem CommandWord.encode : CommandWord.Statement .encode := by unfold CommandWord.Statement; decide

end Laws
end Sys2Proof
end

