-- ==== Sys2Proof/Laws/Registers.lean ====
section
/-! SUPPORT. The register window: which offsets hold a register, and which register. -/

namespace Sys2Proof
namespace Machine

/-- Every multiple of 4 inside the window holds a register (20_memory.md R64). -/
theorem exists_regAt {offset : Nat} (hl : offset < 0x228) (h4 : offset % 4 = 0) : ∃ r, regAt offset = some r := by
  have key : ∀ o : Fin 0x228, o.val % 4 = 0 → (regAt o.val).isSome := by decide +kernel
  exact Option.isSome_iff_exists.mp (key ⟨offset, hl⟩ h4)

/-- No register lies at 0x228 or above (20_memory.md R64). -/
theorem regAt_outside {offset : Nat} (h : 0x228 ≤ offset) : regAt offset = none := by
  unfold regAt
  rw [dif_neg (by omega), if_neg (by omega)]
  split <;> first | omega | rfl

/-- HRF word `k` lies at 0x100 + 4k (10_state.md R30). -/
theorem regAt_hrf (k : Fin 74) : regAt (0x100 + 4 * k.val) = some (.hrf k) := by
  unfold regAt
  rw [dif_pos (by omega)]
  congr 2
  exact Fin.ext (by simp)

/-- The reserved offsets (10_state.md R41). -/
theorem regAt_reserved {offset : Nat} (h1 : 0x03C ≤ offset) (h2 : offset < 0x100) : regAt offset = some .reserved := by
  unfold regAt
  rw [dif_neg (by omega), if_pos ⟨h1, h2⟩]

/-- An access that reaches a register is aligned, and its offset holds that register. -/
theorem regAccess_ok {width : AccessWidth} {offset : Nat} {r : Reg} (h : regAccess width offset = .ok r) :
    width = .word ∧ offset % 4 = 0 ∧ regAt offset = some r := by
  unfold regAccess at h
  split at h
  · cases h
  · next hw =>
    split at h
    · cases h
    · next h4 =>
      split at h
      · next q hq =>
        cases h
        exact ⟨by simpa using hw, by simpa using h4, hq⟩
      · cases h

/-- A word access at an offset that holds a register reaches it. -/
theorem regAccess_of_regAt {offset : Nat} {r : Reg} (h4 : offset % 4 = 0) (h : regAt offset = some r) :
    regAccess .word offset = .ok r := by
  simp [regAccess, h4, h]

/-- Only offset 0x100 + 4k reaches HRF word `k`. -/
theorem offset_of_hrf {width : AccessWidth} {offset : Nat} {k : Fin 74} (h : regAccess width offset = .ok (.hrf k)) :
    offset = 0x100 + 4 * k.val := by
  obtain ⟨-, h4, hr⟩ := regAccess_ok h
  unfold regAt at hr
  split at hr
  · next hh =>
    have hv := congrArg Fin.val (Reg.hrf.inj (Option.some.inj hr))
    simp at hv; omega
  · split at hr
    · simp at hr
    · split at hr <;> simp at hr

/-- Only offset 0x000 reaches CMD. -/
theorem offset_of_cmd {width : AccessWidth} {offset : Nat} (h : regAccess width offset = .ok .cmd) : offset = 0 := by
  obtain ⟨-, -, hr⟩ := regAccess_ok h
  unfold regAt at hr
  split at hr
  · simp at hr
  · split at hr
    · simp at hr
    · split at hr <;> first | rfl | simp at hr

/-- The value SRC_OFF and SRC_LEN store (10_state.md R36, R37). -/
theorem toNat_clampToSrc (s : State) (v : Word) :
    (s.clampToSrc v).toNat = min v.toNat s.caps.srcSize.toNat := by
  unfold State.clampToSrc
  split <;> omega

end Machine
end Sys2Proof
end

