-- ==== Sys2Proof/Laws/Step.lean ====
section
/-! SUPPORT. Everything a host transaction, the engine's turn and a step can do. -/

namespace Sys2Proof
namespace Machine

/-- What a host transaction that has a meaning does. -/
inductive HostEffect (s : State) : Transaction → State → Prop where
  | dropped (offset : Nat) (v : Word) (r : Reg) (hr : regAccess .word offset = .ok r) (hb : s.status.busy = true) :
      HostEffect s (.regWrite .word offset v) s.dropWrite
  | written (offset : Nat) (v : Word) (r : Reg) (hr : regAccess .word offset = .ok r) (hb : s.status.busy = false) :
      HostEffect s (.regWrite .word offset v) (s.writeReg r v)
  | regRead (offset : Nat) (r : Reg) (hr : regAccess .word offset = .ok r) :
      HostEffect s (.regRead .word offset) (s.logRead (.reg offset (s.readReg r)))
  | srcWritten (a : Nat) (v : Byte) (ha : a < s.caps.srcSize.toNat) (hb : s.status.busy = false) :
      HostEffect s (.srcWrite a v) { s with src := s.src.write a v }
  | srcRead (a : Nat) (ha : a < s.caps.srcSize.toNat) :
      HostEffect s (.srcRead a) (s.logRead (.src a (s.srcReadBack a)))
  | dstRead (a : Nat) (ha : a < s.caps.dstSize.toNat) (hb : s.status.busy = false) :
      HostEffect s (.dstRead a) (s.logRead (.dst a (s.dstReadBack a)))
  | dstReadBusy (a : Nat) (ha : a < s.caps.dstSize.toNat) (hb : s.status.busy = true) :
      HostEffect s (.dstRead a)
        { s.logRead (.dst a (Config.dstWhileBusy s.draws)) with draws := s.draws + 1 }

/-- A register access with a meaning is 32 bits wide. -/
theorem regAccess_ok_width {w : AccessWidth} {offset : Nat} {r : Reg} (h : regAccess w offset = .ok r) : w = .word := by
  unfold regAccess at h; split at h <;> simp_all

/-- Everything a host transaction can do. -/
theorem hostTurn_eq_next_iff (t : Transaction) (s u : State) : hostTurn t s = .next u ↔ HostEffect s t u := by
  constructor
  · intro h
    cases t with
    | regWrite w offset v =>
      simp only [hostTurn] at h
      split at h
      · cases h
      · next r hr =>
        cases regAccess_ok_width hr
        obtain rfl := Host.Outcome.next.inj h
        split
        · next hb => exact .dropped offset v r hr hb
        · next hb => exact .written offset v r hr (by simpa using hb)
    | regRead w offset =>
      simp only [hostTurn] at h
      split at h
      · cases h
      · next r hr =>
        cases regAccess_ok_width hr
        obtain rfl := Host.Outcome.next.inj h
        exact .regRead offset r hr
    | srcWrite a v =>
      simp only [hostTurn] at h
      split at h
      · cases h
      · split at h
        · cases h
        · next ha hb =>
          obtain rfl := Host.Outcome.next.inj h
          exact .srcWritten a v (by omega) (by simpa using hb)
    | srcRead a =>
      simp only [hostTurn] at h
      split at h
      · cases h
      · next ha =>
        obtain rfl := Host.Outcome.next.inj h
        exact .srcRead a (by omega)
    | dstRead a =>
      simp only [hostTurn] at h
      split at h
      · cases h
      · next ha =>
        split at h
        · next hb =>
          obtain rfl := Host.Outcome.next.inj h
          exact .dstReadBusy a (by omega) hb
        · next hb =>
          obtain rfl := Host.Outcome.next.inj h
          exact .dstRead a (by omega) (by simpa using hb)
  · rintro (⟨_, _, r, hr, hb⟩ | ⟨_, _, r, hr, hb⟩ | ⟨_, r, hr⟩ | ⟨_, _, ha, hb⟩ | ⟨_, ha⟩ | ⟨_, ha, hb⟩ |
      ⟨_, ha, hb⟩) <;> simp_all [hostTurn, Nat.not_le.mpr]

/-- A host transaction never faults. -/
theorem hostTurn_ne_fault (t : Transaction) (s : State) (r : Fault) : hostTurn t s ≠ .fault r := by
  cases t <;> simp only [hostTurn] <;> (repeat' split) <;> simp

/-- Everything the engine's turn can do. -/
theorem engineTurn_cases {s t : State} (h : engineTurn s = .next t) :
    (s.status.busy = false ∧ t = s) ∨
    (s.status.busy = true ∧ ∃ i, decode s.pending = .ok i ∧ exec i s = .next t) ∨
    (s.status.busy = true ∧ (∃ e, decode s.pending = .error e) ∧ t = s.completeError .illegalCommand) := by
  unfold engineTurn at h
  split at h
  · next hb =>
    split at h
    · next i hi => exact .inr (.inl ⟨hb, i, hi, h⟩)
    · next e he => exact .inr (.inr ⟨hb, ⟨e, he⟩, (Host.Outcome.next.inj h).symm⟩)
  · next hb => exact .inl ⟨by simpa using hb, (Host.Outcome.next.inj h).symm⟩

/-- What the engine's turn does to a state, whatever PENDING holds: nothing while BUSY = 0, else one commit or one
error completion. -/
theorem engineTurn_effect {s t : State} (h : engineTurn s = .next t) :
    (s.status.busy = false ∧ t = s) ∨
    (s.status.busy = true ∧ ∃ i c, Commits i s c ∧ t = s.completeSuccess c) ∨
    (s.status.busy = true ∧ ∃ e, t = s.completeError e) := by
  rcases engineTurn_cases h with h | ⟨hb, i, -, h⟩ | ⟨hb, -, h⟩
  · exact .inl h
  · rcases exec_cases h with ⟨c, hc, h⟩ | ⟨e, -, h⟩
    · exact .inr (.inl ⟨hb, i, c, hc, h⟩)
    · exact .inr (.inr ⟨hb, e, h⟩)
  · exact .inr (.inr ⟨hb, _, h⟩)

/-- Everything a step can do: the engine's turn, a host transaction or a reset. -/
theorem step_cases {s t : State} (h : step s = .next t) :
    (s.inputs = [] ∧ engineTurn s = .next t) ∨
    (∃ rest, s.inputs = .engineTurn :: rest ∧ engineTurn { s with inputs := rest } = .next t) ∨
    (∃ x rest, s.inputs = .host x :: rest ∧ HostEffect { s with inputs := rest } x t) ∨
    (∃ rest, s.inputs = .reset :: rest ∧ t = State.resetInput { s with inputs := rest }) := by
  unfold step at h
  split at h
  · next hi => exact .inl ⟨hi, h⟩
  · next rest hi => exact .inr (.inl ⟨rest, hi, h⟩)
  · next x rest hi => exact .inr (.inr (.inl ⟨x, rest, hi, (hostTurn_eq_next_iff ..).mp h⟩))
  · next rest hi => exact .inr (.inr (.inr ⟨rest, hi, (Host.Outcome.next.inj h).symm⟩))

end Machine
end Sys2Proof
end

