-- ==== Sys2Proof/Tests/Slice0.lean ====
section
/-! SUPPORT. The model's own tests. Expected values are those of spec/95_test_vectors.md, whose vectors name the tests,
and the words of 30_encoding.md R84. Then, for each obligation with hypotheses, a concrete case that meets them. -/

namespace Sys2Proof
namespace Machine
namespace Tests

-- The tests are checked one after another: as many kernel evaluations at once can use up the checker's memory limit.
set_option Elab.async false

/-! ### Helpers -/

/-- The vectors' parameters: 4096, 4096 and slot 0, right after reset. -/
def base : State := { State.reset with caps := ⟨4096, 4096, 0⟩ }

/-- `n` bytes, 0 but for those listed by offset. -/
def sparse (n : Nat) (l : List (Nat × Byte)) : List Byte :=
  (List.range n).map fun k => ((l.find? fun c => c.1 == k).map Prod.snd).getD 0

/-- `n` bytes counting up from `a`. -/
def counting (a n : Nat) : List Byte := (List.range n).map fun k => BitVec.ofNat 8 (a + k)

/-- An HRF, 0 but for the words listed by number (10_state.md R31). -/
def hrfOf (l : List (Nat × Word)) : Header :=
  Vector.ofFn fun k => ((l.find? fun c => c.1 == k.val).map Prod.snd).getD 0

/-- `SB 0, bytes` and `SETSRC 0, <their number>` on `base`, with this HRF. -/
def load (h : Header) (bytes : List Byte) : State :=
  { base with hrf := h, src := Memory.writeBytes [] 0 bytes, srcLen := u32 bytes.length }

/-- `s` with DST_SIZE replaced. -/
def withDst (s : State) (n : Word) : State := { s with caps := { s.caps with dstSize := n } }

/-- `s` with SRC_LEN replaced. -/
def withLen (s : State) (n : Word) : State := { s with srcLen := n }

/-- `s` with the word `w` accepted. -/
def busyWith (w : Word) (s : State) : State := s.accept w

/-- The next state, if there is one. -/
def after (o : Host.Outcome State Fault Refusal) : Option State :=
  match o with
  | .next s => some s
  | .fault _ | .refused _ => none

/-- STATUS, ERRCODE and the result registers. -/
def summary (s : State) : Nat × Nat × List Nat :=
  (s.status.word.toNat, s.errcode.toNat,
    [s.results.bytesConsumed, s.results.outLen, s.results.strideGroups, s.results.fill, s.results.block,
      s.results.keptCount, s.results.skippedCount].map BitVec.toNat)

/-- The summary of the next state, if there is one. -/
def report (o : Host.Outcome State Fault Refusal) : Option (Nat × Nat × List Nat) := (after o).map summary

/-- These bytes at the addresses from 0, and no others. -/
def cells (bytes : List Byte) : Memory := (List.range bytes.length).zip bytes

/-- DST of the next state, if there is one. -/
def dstOf (o : Host.Outcome State Fault Refusal) : Option Memory := (after o).map fun s => s.dst

/-- A next state with a decidable property, from its evaluation. -/
theorem next_of {o : Host.Outcome State Fault Refusal} {P : State → Prop} [DecidablePred P]
    (h : (after o).any (fun t => decide (P t)) = true) : ∃ t, o = .next t ∧ P t := by
  cases o with
  | next t => exact ⟨t, rfl, by simpa [after] using h⟩
  | fault r => simp [after] at h
  | refused r => simp [after] at h

/-- What a read of loaded bytes gives. -/
theorem read_loaded (h : Header) (bytes : List Byte) (a n : Nat) (hn : a + n ≤ bytes.length) :
    (load h bytes).src.readBytes a n = some (slice bytes a n) := by
  rw [Memory.readBytes_eq_some_iff]
  refine ⟨length_slice_of_le hn, fun k hk => ?_⟩
  show (Memory.writeBytes [] 0 bytes).read (a + k) = _
  rw [Memory.read_writeBytes, if_pos (by omega), getElem?_slice _ _ _ _ hk, Nat.sub_zero]

/-- Every byte of a loaded window is written. -/
theorem window_written (h : Header) (bytes : List Byte) :
    ∀ a, (load h bytes).srcOff.toNat ≤ a → a < (load h bytes).srcLen.toNat →
      ((load h bytes).src.read a).isSome = true := by
  intro a _ ha
  have hl : a < bytes.length := by
    have : (u32 bytes.length).toNat ≤ bytes.length := by
      rw [u32, BitVec.toNat_ofNat]; exact Nat.mod_le _ _
    exact Nat.lt_of_lt_of_le ha this
  show ((Memory.writeBytes [] 0 bytes).read a).isSome = true
  rw [Memory.read_writeBytes, if_pos (by omega)]
  simpa using hl

/-! ### Command words (30_encoding.md R83 to R85) -/

theorem test_words_decode :
    decode 0b00000000000000000000000000000001#32 = .ok .decodeHeader ∧
    decode 0b00000000000000000000000000000010#32 = .ok .destride ∧
    decode 0b00000000000000000000000000000011#32 = .ok .decode ∧
    decode 0b00000000000000000000000000000100#32 = .ok .encodeHeader ∧
    decode 0b00000000000000000000000000000101#32 = .ok .restride ∧
    decode 0b00000000000000000000000000000110#32 = .ok .encode := by decide

theorem test_illegal_words :
    decode 0x00000000#32 = .error .opNotAssigned ∧ decode 0x00000007#32 = .error .opNotAssigned ∧
    decode 0x0000000F#32 = .error .opNotAssigned ∧ decode 0x00000011#32 = .error .reservedBitsSet ∧
    decode 0x80000001#32 = .error .reservedBitsSet ∧ decode 0xFFFFFFF3#32 = .error .reservedBitsSet := by decide

/-- A command word with RSVD set, with OP 0 and with OP 7 is not well formed; the six words are. -/
theorem test_wfCommandWord :
    wfCommandWord 0x00000011#32 = false ∧ wfCommandWord 0x00000000#32 = false ∧ wfCommandWord 0x00000007#32 = false ∧
    (∀ i : Instr, wfCommandWord (encode i) = true) := by
  refine ⟨by decide, by decide, by decide, ?_⟩
  intro i; cases i <;> decide

/-- A half-word, a misaligned and an outside register access are not well formed; the last word of the window is. -/
theorem test_wfRegAccess :
    wfRegAccess .half 0x100 = false ∧ wfRegAccess .word 0x102 = false ∧ wfRegAccess .word 0x228 = false ∧
    wfRegAccess .word 0x224 = true := by decide

/-- The machine refuses those accesses, each by its name (60_exceptions.md R214). -/
theorem test_refused_accesses :
    hostTurn (.regRead .half 0x100) base = .refused .registerAccessWidth ∧
    hostTurn (.regWrite .word 0x102 0) base = .refused .registerAccessMisaligned ∧
    hostTurn (.regRead .word 0x228) base = .refused .registerOutsideWindow ∧
    hostTurn (.srcWrite 4096 0) base = .refused .srcAddressOutside ∧
    hostTurn (.srcWrite 0 0) (busyWith 1 base) = .refused .srcWriteWhileBusy ∧
    hostTurn (.dstRead 4096) base = .refused .dstAddressOutside := ⟨rfl, rfl, rfl, rfl, rfl, rfl⟩

/-! ### DECODE_HEADER -/

/-- Frame H1 of section 2.2. -/
def frameH1 : List Byte :=
  [0x41, 0x42, 0x43, 0x44, 0x78, 0x56, 0x34, 0x12, 0x57, 0x58, 0x59, 0x5A, 0x11, 0x22, 0x33, 0x44,
   0, 0, 0, 4, 0, 0, 0, 0, 0, 0, 0, 2, 0, 0, 0, 2, 0, 0, 0, 3] ++
  (List.replicate 30 [0, 0, 0, 1]).flatten ++ [0, 0, 0, 8, 0, 0, 0, 8] ++ List.replicate 120 0 ++
  [0, 0, 0, 0x18, 0x3F, 0xF8, 0, 0, 0, 0, 0, 0]

def stateH1 : State := load (hrfOf []) frameH1

theorem test_H1 :
    ∃ t, exec .decodeHeader stateH1 = .next t ∧ (summary t = (0xA, 0, [296, 0, 0, 0, 0, 0, 0]) ∧
      t.status.err = false ∧ [t.hrf.outerTag, t.hrf.outerSize, t.hrf.innerTag, t.hrf.innerSize, t.hrf.planeCount,
        t.hrf.sampleType, t.hrf.dimCount, t.hrf.dims 0, t.hrf.dims 1, t.hrf.dims 31, t.hrf.strides 0,
        t.hrf.strides 1, t.hrf.strides 31, t.hrf.dataSize, t.hrf.timestampHi, t.hrf.timestampLo] =
      [0x44434241, 0x12345678, 0x5A595857, 0x11223344, 4, 0, 2, 2, 3, 1, 8, 8, 0, 0x18, 0x3FF80000, 0]) :=
  next_of (by decide +kernel)

theorem test_H2 : report (exec .decodeHeader (withLen stateH1 295)) = some (0x6, 1, [0, 0, 0, 0, 0, 0, 0]) := by
  decide +kernel

/-! ### ENCODE_HEADER -/

def stateH5 : State :=
  { base with hrf := hrfOf [(4, 4), (7, 2), (8, 3), (12, 77), (48, 99), (5, 3), (6, 9)] }

theorem test_H5 :
    report (exec .encodeHeader stateH5) = some (0xA, 0, [0, 296, 0, 0, 0, 0, 0]) ∧
    dstOf (exec .encodeHeader stateH5) = some (cells <| List.replicate 16 0 ++
      [0, 0, 0, 4, 0, 0, 0, 0, 0, 0, 0, 2, 0, 0, 0, 2, 0, 0, 0, 3] ++ (List.replicate 30 [0, 0, 0, 1]).flatten ++
      [0, 0, 0, 8, 0, 0, 0, 8] ++ List.replicate 120 0 ++ [0, 0, 0, 0x18, 0, 0, 0, 0, 0, 0, 0, 0]) := by
  decide +kernel

theorem test_H8b : report (exec .encodeHeader { base with hrf := hrfOf [(4, 2), (7, 0x8000), (8, 0x8000)] }) =
    some (0x6, 3, [0, 0, 0, 0, 0, 0, 0]) := by decide +kernel

/-! ### DESTRIDE -/

/-- The setup of section 2.4. -/
def stride (pc dx s ds : Word) (bytes : List Byte) : State :=
  load (hrfOf [(6, 2), (8, 1), (4, pc), (7, dx), (39, s), (71, ds)]) bytes

def stateS1 : State := stride 1 3 4 8 [0x41, 0x42, 0x43, 0x58, 0x41, 0x42, 0x43, 0x58]

theorem test_S8 :
    report (exec .destride (stride 1 4 3 12 (counting 0x30 12))) = some (0x2, 0, [12, 8, 3, 2, 6, 8, 4]) ∧
    dstOf (exec .destride (stride 1 4 3 12 (counting 0x30 12))) =
      some (cells [0x30, 0x31, 0x32, 0x33, 0x36, 0x37, 0x38, 0x39]) := by decide +kernel

/-- Vector S11b: ROW_STRIDE_SLOT = 1 takes the row stride from STRIDES[1]. -/
theorem test_S11b :
    let s := { stateS1 with hrf := stateS1.hrf.set 40 8, caps := ⟨4096, 4096, 1⟩ }
    report (exec .destride s) = some (0x2, 0, [8, 3, 8, 5, 8, 3, 5]) ∧
    dstOf (exec .destride s) = some (cells [0x41, 0x42, 0x43]) := by decide +kernel

/-! ### RESTRIDE -/

/-- The setup of section 2.5. -/
def dense (pc dx dy : Word) (bytes : List Byte) : State := load (hrfOf [(4, pc), (7, dx), (8, dy)]) bytes

def stateP2 : State := dense 3 2 2 (counting 0 12)

theorem test_P2 :
    report (exec .restride stateP2) = some (0x2, 0, [12, 12, 2, 0, 2, 4, 0]) ∧
    dstOf (exec .restride stateP2) = some (cells <| counting 0 12) := by decide +kernel

/-- Vector P5: INVALID_GEOMETRY comes before DST_OVERFLOW. -/
theorem test_P5 : report (exec .restride (withDst (dense 3 2 0 (counting 0 12)) 11)) =
    some (0x6, 3, [0, 0, 0, 0, 0, 0, 0]) := by decide +kernel

/-! ### DECODE -/

/-- Frame F1 of section 2.6: its header bytes that are not 0, then the payload. -/
def frameF1 : List Byte :=
  sparse 296 [(19, 1), (27, 2), (31, 3), (35, 2), (159, 4), (163, 4), (287, 8)] ++
  [0x41, 0x42, 0x43, 0x58, 0x41, 0x42, 0x43, 0x58]

def stateF1 : State := load (hrfOf []) frameF1

theorem test_F1 :
    ∃ t, exec .decode stateF1 = .next t ∧ (summary t = (0xA, 0, [304, 6, 4, 1, 4, 6, 2]) ∧ t.status.err = false ∧
      t.results.bytesConsumed.toNat = 304 ∧ t.dst = cells [0x41, 0x42, 0x43, 0x41, 0x42, 0x43] ∧
      t.hrf = hrfOf [(4, 1), (6, 2), (7, 3), (8, 2), (39, 4), (40, 4), (71, 8)]) := next_of (by decide +kernel)

theorem test_F3 : report (exec .decode (load (hrfOf []) (frameF1.take 100))) =
    some (0x6, 1, [0, 0, 0, 0, 0, 0, 0]) := by decide +kernel

/-! ### ENCODE -/

def stateE1 : State := dense 1 2 2 [1, 2, 3, 4]

theorem test_E1 :
    report (exec .encode stateE1) = some (0xA, 0, [4, 300, 2, 0, 2, 4, 0]) ∧
    dstOf (exec .encode stateE1) = some (cells <| List.replicate 16 0 ++
      [0, 0, 0, 1, 0, 0, 0, 0, 0, 0, 0, 2, 0, 0, 0, 2, 0, 0, 0, 2] ++ (List.replicate 30 [0, 0, 0, 1]).flatten ++
      [0, 0, 0, 2, 0, 0, 0, 2] ++ List.replicate 120 0 ++ [0, 0, 0, 4, 0, 0, 0, 0, 0, 0, 0, 0] ++
      [1, 2, 3, 4]) := by decide +kernel

theorem test_E2 : report (exec .encode (withDst stateE1 299)) = some (0x6, 6, [0, 0, 0, 0, 0, 0, 0]) := by
  decide +kernel

/-! ### The register interface -/

/-- Vector I12: the word is illegal although OP = 3, and CMD keeps it. -/
theorem test_I12 :
    report (step (base.withFetchWord 32 0xFFFFFFF3)) = some (0x6, 5, [0, 0, 0, 0, 0, 0, 0]) ∧
    (after (step (base.withFetchWord 32 0xFFFFFFF3))).map (fun t => t.cmd) = some 0xFFFFFFF3#32 := by decide +kernel

/-- Vector W1: a register write while the command is pending is dropped and recorded. -/
theorem test_W1 :
    let s := { busyWith 4 base with inputs := [hostSetHdr 4 5] }
    (after (step s)).map (fun t => (t.status.word, t.hrf.planeCount)) = some (0x11#32, 0#32) ∧
    report (engineTurn s.dropWrite) = some (0x16, 3, [0, 0, 0, 0, 0, 0, 0]) := by decide +kernel

/-- Vector W2: SRC_OFF is clamped to SRC_SIZE. -/
theorem test_W2 : (after (hostTurn (.regWrite .word 0x00C 0xFFFFFFFF) base)).map (fun t => t.srcOff) =
    some 0x1000#32 := by decide +kernel

/-- Vectors W3 and W4: a write to a reserved offset is ignored; what reads return after reset. -/
theorem test_W3_W4 :
    hostTurn (.regWrite .word 0x03C 0x12345678) base = .next base ∧
    ([0x004, 0x008, 0x030, 0x034, 0x038, 0x03C].map fun o =>
      (after (hostTurn (.regRead .word o) base)).map fun t => t.hostReads) =
    [some [.reg 0x004 0], some [.reg 0x008 0], some [.reg 0x030 0x1000], some [.reg 0x034 0x1000],
      some [.reg 0x038 0], some [.reg 0x03C 0]] := ⟨rfl, by decide +kernel⟩

/-- The memories of the state after reset are in canonical form. -/
theorem test_reset_memories_canonical : State.reset.src.wf ∧ State.reset.dst.wf := by decide

/-! ### Concrete cases that meet the hypotheses of the obligations

One theorem for each obligation that has hypotheses, and one conjunct for each of its clauses, at the ends of its range. -/

theorem witness_IllegalWordCompletesWithCode5 :
    let s := busyWith 7 base
    s.status.busy = true ∧ s.inputs = [] ∧ s.pending ≠ 0x00000001#32 ∧ s.pending ≠ 0x00000002#32 ∧
    s.pending ≠ 0x00000003#32 ∧ s.pending ≠ 0x00000004#32 ∧ s.pending ≠ 0x00000005#32 ∧
    s.pending ≠ 0x00000006#32 := by decide +kernel

theorem witness_StepExecutesPendingCommand :
    let s := busyWith 3 base
    s.status.busy = true ∧ decode s.pending = .ok .decode ∧ s.inputs = [] ∧
    (s.withInputs [.engineTurn]).inputs = [.engineTurn] ∧ (s.withInputs [.engineTurn]).status.busy = true ∧
    (s.withInputs [hostR .status]).inputs = .host (.regRead .word 0x004) :: [] := by
  decide +kernel

theorem witness_SixWordsDecodeAndEncode : Instr.decodeHeader.wf = true ∧ Instr.encode.wf = true := by decide

/-- For HeaderCodecLosesNoBit, ParseHeaderReadsEachField and TagLanesAndTimestampHalves (its first and last lane). -/
theorem witness_frame_of_296_bytes : frameH1.length = 296 ∧ 0 < 4 ∧ 3 < 4 := by decide +kernel

theorem witness_DecodeHeaderCommitsTheHeader :
    296 ≤ stateH1.avail ∧ stateH1.src.readBytes stateH1.srcOff.toNat 296 = some (slice frameH1 0 296) :=
  ⟨by decide +kernel, read_loaded _ _ 0 296 (by decide +kernel)⟩

theorem geometry_H5 : EncodeGeometryOk stateH5.hrf ⟨4, 2, 3, 24⟩ := by constructor <;> decide +kernel

/-- Vector H8: the largest size there is. -/
theorem geometry_H8 : EncodeGeometryOk (hrfOf [(4, 1), (7, 0x7FFFFFFF), (8, 1)]) ⟨1, 2 ^ 31 - 1, 1, 2 ^ 31 - 1⟩ :=
  by constructor <;> decide +kernel

theorem geometry_P2 : EncodeGeometryOk stateP2.hrf ⟨3, 2, 2, 12⟩ := by constructor <;> decide +kernel

theorem geometry_E1 : EncodeGeometryOk stateE1.hrf ⟨1, 2, 2, 4⟩ := by constructor <;> decide +kernel

theorem geometry_S1 : DecodeGeometryOk stateS1.caps.rowStrideSlot stateS1.hrf ⟨1, 3, 8, 4⟩ :=
  by constructor <;> decide +kernel

theorem geometry_F1 : DecodeGeometryOk stateF1.caps.rowStrideSlot (parseHeader (slice frameF1 0 296)) ⟨1, 3, 8, 4⟩ :=
  by constructor <;> decide +kernel

theorem witness_EncodeHeaderCommitsTheImage :
    EncodeGeometryOk stateH5.hrf ⟨4, 2, 3, 24⟩ ∧ 296 ≤ stateH5.caps.dstSize.toNat ∧
    296 ≤ (withDst stateH5 296).caps.dstSize.toNat := ⟨geometry_H5, by decide +kernel, by decide +kernel⟩

theorem witness_DestrideCommitsTheKeptGroups :
    let g : DecodeGeometry := ⟨1, 3, 8, 4⟩
    DecodeGeometryOk stateS1.caps.rowStrideSlot stateS1.hrf g ∧ g.ds ≤ stateS1.avail ∧
    stateS1.src.readBytes stateS1.srcOff.toNat g.ds =
      some [0x41, 0x42, 0x43, 0x58, 0x41, 0x42, 0x43, 0x58] ∧
    (let sg := g.stride / g.pc
     let fill := (sg - g.dx % sg) % sg
     let block := g.dx + fill
     let groups := g.ds / g.pc
     let kept := groups / block * g.dx + min (groups % block) g.dx
     kept * g.pc ≤ stateS1.caps.dstSize.toNat) := ⟨geometry_S1, by decide +kernel⟩

theorem witness_RestrideCommitsTheDenseBytes :
    EncodeGeometryOk stateP2.hrf ⟨3, 2, 2, 12⟩ ∧ 12 ≤ stateP2.avail ∧ 12 ≤ stateP2.caps.dstSize.toNat ∧
    stateP2.src.readBytes stateP2.srcOff.toNat 12 = some (counting 0 12) := ⟨geometry_P2, by decide +kernel⟩

theorem readBytes_F1 : stateF1.src.readBytes stateF1.srcOff.toNat 296 = some (slice frameF1 0 296) :=
  read_loaded _ _ 0 296 (by decide +kernel)

theorem witness_DecodeCommitsHeaderAndPixels :
    let g : DecodeGeometry := ⟨1, 3, 8, 4⟩
    stateF1.src.readBytes stateF1.srcOff.toNat 296 = some (slice frameF1 0 296) ∧
    DecodeGeometryOk stateF1.caps.rowStrideSlot (parseHeader (slice frameF1 0 296)) g ∧ 296 + g.ds ≤ stateF1.avail ∧
    stateF1.src.readBytes (stateF1.srcOff.toNat + 296) g.ds = some (slice frameF1 296 8) ∧
    (let sg := g.stride / g.pc
     let fill := (sg - g.dx % sg) % sg
     let block := g.dx + fill
     let groups := g.ds / g.pc
     let kept := groups / block * g.dx + min (groups % block) g.dx
     kept * g.pc ≤ stateF1.caps.dstSize.toNat) := 
  ⟨readBytes_F1, geometry_F1, by decide +kernel, read_loaded _ _ 296 8 (by decide +kernel), by decide +kernel⟩

theorem witness_EncodeCommitsTheFrame :
    EncodeGeometryOk stateE1.hrf ⟨1, 2, 2, 4⟩ ∧ 4 ≤ stateE1.avail ∧ 296 + 4 ≤ (withDst stateE1 300).caps.dstSize.toNat ∧
    stateE1.src.readBytes stateE1.srcOff.toNat 4 = some [1, 2, 3, 4] := ⟨geometry_E1, by decide +kernel⟩

/-- One case for each error kind: vectors I7, H2, S16 (two conditions at once), H6, P3, H9. -/
theorem witness_FirstErrorConditionIsReported :
    ((busyWith 7 base).status.busy = true ∧ ∀ i : Instr, (busyWith 7 base).pending ≠ encode i) ∧
    (ErrorCondition .decodeHeader (withLen stateH1 295) .truncatedHeader ∧
      ∀ e : ErrorKind, e.priority < 2 → ¬ ErrorCondition .decodeHeader (withLen stateH1 295) e) ∧
    (ErrorCondition .destride { base with hrf := hrfOf [(5, 1)] } .unsupportedSampleType ∧
      ErrorCondition .destride { base with hrf := hrfOf [(5, 1)] } .invalidGeometry ∧
      ∀ e : ErrorKind, e.priority < 3 → ¬ ErrorCondition .destride { base with hrf := hrfOf [(5, 1)] } e) ∧
    (ErrorCondition .encodeHeader base .invalidGeometry ∧
      ∀ e : ErrorKind, e.priority < 4 → ¬ ErrorCondition .encodeHeader base e) ∧
    (ErrorCondition .restride (withLen stateP2 11) .truncatedPayload ∧
      ∀ e : ErrorKind, e.priority < 5 → ¬ ErrorCondition .restride (withLen stateP2 11) e) ∧
    (ErrorCondition .encodeHeader (withDst stateH5 295) .dstOverflow ∧
      ∀ e : ErrorKind, e.priority < 6 → ¬ ErrorCondition .encodeHeader (withDst stateH5 295) e) := by
  have hP : ¬ EncodeGeometryBad (withLen stateP2 11).hrf := by unfold EncodeGeometryBad; decide +kernel
  have hH : ¬ EncodeGeometryBad (withDst stateH5 295).hrf := by unfold EncodeGeometryBad; decide +kernel
  have hB : EncodeGeometryBad base.hrf := by unfold EncodeGeometryBad; decide +kernel
  refine ⟨⟨by decide +kernel, ?_⟩, ⟨⟨.inl rfl, by decide +kernel⟩, ?_⟩,
    ⟨⟨_, .inl ⟨rfl, rfl⟩, by decide +kernel⟩,
      .inl ⟨_, .inl ⟨rfl, rfl⟩, .inl (by decide +kernel)⟩, ?_⟩,
    ⟨.inr ⟨.inl rfl, hB⟩, ?_⟩,
    ⟨.inr ⟨.inl rfl, by unfold encodeSize; decide +kernel⟩, ?_⟩, ⟨.inr (.inl ⟨rfl, by decide +kernel⟩), ?_⟩⟩
  · intro i; cases i <;> decide +kernel
  · intro e he; cases e <;> simp [ErrorKind.priority, ErrorCondition] at he ⊢
  · intro e he; cases e <;> simp [ErrorKind.priority, ErrorCondition] at he ⊢
  · intro e he; cases e <;> simp [ErrorKind.priority, ErrorCondition, decodesHeader] at he ⊢
  · intro e he; cases e <;> simp [ErrorKind.priority, ErrorCondition, decodesHeader] at he ⊢; exact fun _ => hP
  · intro e he; cases e <;> simp [ErrorKind.priority, ErrorCondition, decodesHeader] at he ⊢; exact fun _ => hH

theorem witness_NoErrorConditionMeansCommit : ∀ e : ErrorKind, ¬ ErrorCondition .encodeHeader stateH5 e := by
  have hH : ¬ EncodeGeometryBad stateH5.hrf := by unfold EncodeGeometryBad; decide +kernel
  have hD : 296 ≤ stateH5.caps.dstSize.toNat := by decide +kernel
  intro e
  cases e <;> simp [ErrorCondition, decodesHeader, hH]
  exact hD

/-- The window of S1 with its bytes gone. -/
def unwritten (s : State) : State := { s with src := [] }

/-- F1 with only its header written. -/
def headerOnlyF1 : State := { load (hrfOf []) (slice frameF1 0 296) with srcLen := 304 }

theorem readBytes_headerOnlyF1 :
    headerOnlyF1.src.readBytes headerOnlyF1.srcOff.toNat 296 = some (slice frameF1 0 296) := by
  have hs : headerOnlyF1.src = (load (hrfOf []) (slice frameF1 0 296)).src := by rw [headerOnlyF1]
  have ho : headerOnlyF1.srcOff.toNat = 0 := by decide +kernel
  have hl : slice (slice frameF1 0 296) 0 296 = slice frameF1 0 296 := by decide +kernel
  rw [hs, ho, read_loaded _ _ 0 296 (by decide +kernel), hl]

/-- The first and the last byte of each range, unwritten. -/
theorem witness_UnwrittenSourceByteFaults :
    (296 ≤ (unwritten stateH1).avail ∧ (unwritten stateH1).src.read (0 + 0) = none ∧
      (unwritten stateH1).src.read (0 + 295) = none) ∧
    (headerOnlyF1.src.readBytes headerOnlyF1.srcOff.toNat 296 = some (slice frameF1 0 296) ∧
      DecodeGeometryOk headerOnlyF1.caps.rowStrideSlot (parseHeader (slice frameF1 0 296)) ⟨1, 3, 8, 4⟩ ∧
      296 + 8 ≤ headerOnlyF1.avail ∧ keptBytes ⟨1, 3, 8, 4⟩ ≤ headerOnlyF1.caps.dstSize.toNat ∧
      headerOnlyF1.src.read (0 + 296 + 0) = none ∧ headerOnlyF1.src.read (0 + 296 + 7) = none) ∧
    (DecodeGeometryOk (unwritten stateS1).caps.rowStrideSlot (unwritten stateS1).hrf ⟨1, 3, 8, 4⟩ ∧
      8 ≤ (unwritten stateS1).avail ∧ keptBytes ⟨1, 3, 8, 4⟩ ≤ (unwritten stateS1).caps.dstSize.toNat ∧
      (unwritten stateS1).src.read (0 + 0) = none ∧ (unwritten stateS1).src.read (0 + 7) = none) ∧
    (EncodeGeometryOk (unwritten stateP2).hrf ⟨3, 2, 2, 12⟩ ∧ 12 ≤ (unwritten stateP2).avail ∧
      (unwritten stateP2).src.read (0 + 0) = none ∧ (unwritten stateP2).src.read (0 + 11) = none ∧
      296 + 12 ≤ (unwritten stateP2).caps.dstSize.toNat) :=
  ⟨by decide +kernel, ⟨readBytes_headerOnlyF1, geometry_F1, by decide +kernel⟩, ⟨geometry_S1, by decide +kernel⟩,
    ⟨geometry_P2, by decide +kernel⟩⟩

theorem witness_ErrorCompletionChangesNothingElse :
    (busyWith 4 base).status.busy = true ∧ ∃ t, engineTurn (busyWith 4 base) = .next t ∧ t.status.err = true :=
  ⟨by decide +kernel, next_of (by decide +kernel)⟩

theorem commits_H1 : ∃ t, exec .decodeHeader stateH1 = .next t ∧ t.status.err = false :=
  test_H1.imp fun _ h => ⟨h.1, h.2.2.1⟩

theorem commits_F1 : ∃ t, exec .decode stateF1 = .next t ∧ t.status.err = false ∧
    t.results.bytesConsumed.toNat = 304 := test_F1.imp fun _ h => ⟨h.1, h.2.2.1, h.2.2.2.1⟩

theorem commits_E1 : ∃ t, exec .encode stateE1 = .next t ∧ t.status.err = false ∧ t.results.outLen.toNat = 300 :=
  next_of (by decide +kernel)

/-- For CommandsReportOnlyTheirCodes, CommandFrame and ConsumedBytesLieInTheWindow: every command commits somewhere. -/
theorem witness_every_command_commits :
    (∃ t, exec .decodeHeader stateH1 = .next t ∧ t.status.err = false) ∧
    (∃ t, exec .destride stateS1 = .next t ∧ t.status.err = false) ∧
    (∃ t, exec .decode stateF1 = .next t ∧ t.status.err = false) ∧
    (∃ t, exec .encodeHeader stateH5 = .next t ∧ t.status.err = false) ∧
    (∃ t, exec .restride stateP2 = .next t ∧ t.status.err = false) ∧
    (∃ t, exec .encode stateE1 = .next t ∧ t.status.err = false) :=
  ⟨commits_H1, next_of (by decide +kernel), commits_F1.imp fun _ h => ⟨h.1, h.2.1⟩, next_of (by decide +kernel),
    next_of (by decide +kernel), commits_E1.imp fun _ h => ⟨h.1, h.2.1⟩⟩

/-- RESTRIDE of P2b: another SAMPLE_TYPE, DIM_COUNT and STRIDES[0], another SRC byte past the 12 that it reads but inside
the window, and another DST. -/
def stateP2b : State := withLen stateP2 20

/-- `stateP2b` with everything changed that RESTRIDE does not read. -/
def stateP2bOther : State :=
  { stateP2b with
    hrf := hrfOf [(4, 3), (7, 2), (8, 2), (5, 3), (6, 9), (39, 99)]
    src := stateP2b.src.write 12 7
    dst := [(0, 1)] }

theorem sameOperands_P2b : SameOperands .restride stateP2b stateP2bOther where
  caps := rfl
  srcOff _ := rfl
  srcLen _ := rfl
  header := by decide +kernel
  source := by
    intro a _ ha _
    have h : stateP2b.srcOff.toNat + bytesRead .restride stateP2b = 12 := by decide +kernel
    have hs : stateP2bOther.src = stateP2b.src.write 12 7 := by rw [stateP2bOther]
    rw [hs, Memory.read_write, if_neg (by omega)]

/-- For a command that reads no HRF word: any HRF, and any SRC byte past the header. -/
def stateH1Other : State := { stateH1 with hrf := hrfOf [(0, 9)], src := stateH1.src.write 296 7 }

theorem sameOperands_H1 : SameOperands .decodeHeader stateH1 stateH1Other where
  caps := rfl
  srcOff _ := rfl
  srcLen _ := rfl
  header := by decide
  source := by
    intro a _ ha _
    have h : stateH1.srcOff.toNat + bytesRead .decodeHeader stateH1 = 296 := by decide +kernel
    have hs : stateH1Other.src = stateH1.src.write 296 7 := by rw [stateH1Other]
    rw [hs, Memory.read_write, if_neg (by omega)]

/-- `stateH5` with another window, another SRC and other HRF words that ENCODE_HEADER does not read. -/
def stateH5Other : State :=
  { stateH5 with hrf := hrfOf [(4, 4), (7, 2), (8, 3), (5, 1), (39, 5)], srcOff := 3, srcLen := 9, src := [(4, 1)] }

theorem sameOperands_H5 : SameOperands .encodeHeader stateH5 stateH5Other where
  caps := rfl
  srcOff h := absurd rfl h
  srcLen h := absurd rfl h
  header := by decide +kernel
  source := by
    intro a h1 h2 _
    have h : bytesRead .encodeHeader stateH5 = 0 := rfl
    omega

theorem witness_OutcomeDependsOnlyOnOperands :
    (SameOperands .restride stateP2b stateP2bOther ∧
      ∃ t, exec .restride stateP2b = .next t ∧ t.status.err = false) ∧
    (SameOperands .decodeHeader stateH1 stateH1Other ∧
      ∃ t, exec .decodeHeader stateH1 = .next t ∧ t.status.err = false) ∧
    (SameOperands .restride (unwritten stateP2) (unwritten stateP2) ∧
      exec .restride (unwritten stateP2) = .fault .unwrittenSrcByte) ∧
    (SameOperands .encodeHeader stateH5 stateH5Other ∧ ∃ t, exec .encodeHeader stateH5 = .next t ∧ t.status.err = false) :=
  ⟨⟨sameOperands_P2b, next_of (by decide +kernel)⟩, ⟨sameOperands_H1, commits_H1⟩,
    ⟨⟨rfl, fun _ => rfl, fun _ => rfl, fun _ _ => rfl, fun _ _ _ _ => rfl⟩, rfl⟩,
    ⟨sameOperands_H5, next_of (by decide +kernel)⟩⟩

theorem witness_AcceptedCommandCompletes :
    let s := busyWith 2 stateS1
    s.status.busy = true ∧ s.inputs = [] ∧
    (∀ a, s.srcOff.toNat ≤ a → a < s.srcLen.toNat → (s.src.read a).isSome = true) :=
  ⟨rfl, rfl, window_written stateS1.hrf [0x41, 0x42, 0x43, 0x58, 0x41, 0x42, 0x43, 0x58]⟩

/-- Rows of table G1: the stride divides the width (G1.5), covers it (G1.4), and neither (G1.10). -/
theorem witness_RowGeometryProperties :
    ((0 < 1 ∧ 0 < 2 ∧ 1 ∣ 2 ∧ 0 < 4) ∧ 2 / 1 ∣ 4) ∧ ((0 < 4 ∧ 0 < 16 ∧ 4 ∣ 16 ∧ 0 < 2) ∧ 2 ≤ 16 / 4) ∧
    ((0 < 1 ∧ 0 < 7 ∧ 1 ∣ 7 ∧ 0 < 10) ∧ 7 / 1 < 10 ∧ 7 / 1 ∣ 14 ∧ 10 ≤ 14) := by decide

/-- Vector S8: the first and the last byte of the output. -/
theorem witness_KeptGroupsClosedForm :
    let groups := (counting 0x30 12).length / 1
    let kept := groups / 6 * 4 + min (groups % 6) 4
    0 < 1 ∧ 0 < 4 ∧ 4 ≤ 6 ∧ 0 < kept ∧ 7 < kept ∧ 0 < 1 := by decide +kernel

/-- Vector S5: two trailing bytes after two plane-groups of four. -/
theorem witness_TrailingBytesAreNotCopied :
    0 < 4 ∧ (counting 0x20 8).length = 2 * 4 ∧ ([0x28, 0x29] : List Byte).length < 4 := by decide +kernel

theorem witness_NoPaddingKeepsEveryGroup : 0 < 4 ∧ 0 < 2 := by decide

/-- Vector S17. -/
theorem witness_SecondDimensionUnusedWhenOneDimensional :
    let s := { stateS1 with hrf := (stateS1.hrf.set 6 1).set 8 0 }
    s.hrf.dimCount = 1 ∧ ∃ t, exec .destride s = .next t ∧ t.status.err = false :=
  ⟨by decide +kernel, next_of (by decide +kernel)⟩

theorem witness_RestrideReturnsItsInput : (counting 0 12).length = 2 * 2 * 3 := by decide +kernel

theorem witness_EncodedStrideHasNoFill :
    EncodeGeometryOk stateP2.hrf ⟨3, 2, 2, 12⟩ ∧
    EncodeGeometryOk (hrfOf [(4, 1), (7, 0x7FFFFFFF), (8, 1)]) ⟨1, 2 ^ 31 - 1, 1, 2 ^ 31 - 1⟩ :=
  ⟨geometry_P2, geometry_H8⟩

theorem witness_DecodeResultsAreExact :
    ((∃ t, exec .destride stateS1 = .next t ∧ t.status.err = false) ∧ decodesHeader .destride stateS1 stateS1.hrf ∧
      DecodeGeometryOk stateS1.caps.rowStrideSlot stateS1.hrf ⟨1, 3, 8, 4⟩) ∧
    ((∃ t, exec .decode stateF1 = .next t ∧ t.status.err = false) ∧
      decodesHeader .decode stateF1 (parseHeader (slice frameF1 0 296)) ∧
      DecodeGeometryOk stateF1.caps.rowStrideSlot (parseHeader (slice frameF1 0 296)) ⟨1, 3, 8, 4⟩) :=
  ⟨⟨next_of (by decide +kernel), .inl ⟨rfl, rfl⟩, geometry_S1⟩,
    ⟨commits_F1.imp fun _ h => ⟨h.1, h.2.1⟩, .inr ⟨rfl, _, readBytes_F1, rfl⟩, geometry_F1⟩⟩

/-- For RegisterReadsReturnTheRegister and the other statements about offsets: the ends of each range, an idle state and
a busy one. -/
theorem witness_register_accesses :
    base.status.busy = false ∧ (busyWith 1 base).status.busy = true ∧
    ((0x000 % 4 = 0 ∧ 0x000 < 0x228) ∧ (0x224 % 4 = 0 ∧ 0x224 < 0x228)) ∧
    ((0x014 % 4 = 0 ∧ 0x014 ≤ 0x014 ∧ 0x014 < 0x100) ∧ (0x0FC % 4 = 0 ∧ 0x014 ≤ 0x0FC ∧ 0x0FC < 0x100)) ∧
    ((0x03C % 4 = 0 ∧ 0x03C ≤ 0x03C ∧ 0x03C < 0x100) ∧ (0x0FC % 4 = 0 ∧ 0x03C ≤ 0x0FC ∧ 0x0FC < 0x100)) := by
  decide +kernel

theorem witness_AcceptStartsTheCommand : base.status.busy = false := rfl

theorem witness_BusyRegisterWriteIsDropped :
    (busyWith 1 base).status.busy = true ∧ (0x000 % 4 = 0 ∧ 0x000 < 0x228) ∧ (0x224 % 4 = 0 ∧ 0x224 < 0x228) := by
  decide +kernel

theorem witness_SourceWindowWritesAreClamped : stateH1.status.busy = false := rfl

theorem witness_HeaderWriteStoresAndClearsValid :
    stateH1.status.busy = false ∧ (0 : Fin 74) ≠ 73 ∧ ({ base with hrf := stateH5.hrf } : State).hrf = stateH5.hrf := by
  decide +kernel

theorem witness_ReadOnlyWritesAreIgnored :
    base.status.busy = false ∧
    ∀ offset ∈ [0x004, 0x008, 0x014, 0x0FC],
      offset % 4 = 0 ∧ (offset = 0x004 ∨ offset = 0x008 ∨ (0x014 ≤ offset ∧ offset < 0x100)) := by decide +kernel

theorem witness_OnlyWordAccessesHaveAMeaning :
    (AccessWidth.word = .word ∧ 0x224 % 4 = 0 ∧ 0x224 < 0x228) ∧
    ¬ (AccessWidth.word = .word ∧ 0x228 % 4 = 0 ∧ 0x228 < 0x228) ∧
    ¬ (AccessWidth.word = .word ∧ 0x222 % 4 = 0 ∧ 0x222 < 0x228) ∧
    ¬ (AccessWidth.half = .word ∧ 0x224 % 4 = 0 ∧ 0x224 < 0x228) := by decide

theorem witness_SourceWritesLandOrAreRefused :
    (base.status.busy = false ∧ 0 < base.caps.srcSize.toNat ∧ 4095 < base.caps.srcSize.toNat ∧ 0 ≠ 4095) ∧
    (busyWith 1 base).status.busy = true ∧ base.caps.srcSize.toNat ≤ 4096 ∧
    (4095 < (busyWith 1 base).caps.srcSize.toNat ∧
      ({ busyWith 1 base with src := [(4095, 7)] } : State).src.read 4095 = some 7) := by decide +kernel

theorem witness_DestinationReads :
    (base.status.busy = false ∧ 4095 < base.caps.dstSize.toNat ∧
      ({ base with dst := [(4095, 7)] } : State).dst.read 4095 = some 7) ∧
    ((busyWith 1 base).status.busy = true ∧ 4095 < (busyWith 1 base).caps.dstSize.toNat) ∧
    base.caps.dstSize.toNat ≤ 4096 := by decide +kernel

theorem witness_ResetInputResetsEveryRegister :
    ((busyWith 1 stateH1).withInputs [.reset]).inputs = .reset :: [] ∧
    ((busyWith 1 stateH1).withInputs [.reset]).status.busy = true := by decide +kernel

theorem witness_IdleEngineChangesNothing :
    base.status.busy = false ∧ base.inputs = [] ∧ (base.withInputs [.engineTurn]).inputs = .engineTurn :: [] := by
  decide +kernel

theorem witness_WaitEndsWithBusyClear :
    let s := (busyWith 2 stateS1).withInputs (hostWait 2)
    s.status.busy = true ∧ s.inputs = hostWait 2 ∧ ((busyWith 2 stateS1).withInputs (hostWait 0)).inputs = hostWait 0 ∧
    (∀ a, s.srcOff.toNat ≤ a → a < s.srcLen.toNat → (s.src.read a).isSome = true) :=
  ⟨rfl, rfl, rfl, window_written stateS1.hrf [0x41, 0x42, 0x43, 0x58, 0x41, 0x42, 0x43, 0x58]⟩

/-- WR_IGNORED rises on a write while BUSY = 1, and falls on an accept and on reset. -/
theorem witness_WriteIgnoredIsSticky :
    (∃ t, step ((busyWith 1 base).withInputs [hostSetHdr 0 1]) = .next t ∧
      (busyWith 1 base).status.wrIgnored = false ∧ t.status.wrIgnored = true) ∧
    (∃ t, step (base.dropWrite.withInputs [hostW .cmd 1]) = .next t ∧
      base.dropWrite.status.wrIgnored = true ∧ t.status.wrIgnored = false) ∧
    (∃ t, step (base.dropWrite.withInputs [.reset]) = .next t ∧
      base.dropWrite.status.wrIgnored = true ∧ t.status.wrIgnored = false) :=
  ⟨next_of (by decide +kernel), next_of (by decide +kernel), next_of (by decide +kernel)⟩

/-- `base` with HDR_VALID = 1. -/
def baseValid : State := { base with status := { base.status with hdrValid := true } }

/-- HDR_VALID rises on a commit of ENCODE_HEADER, and falls on a host HRF write (first and last word) and on reset. -/
theorem witness_HeaderValidChangesOnlyAsStated :
    (∃ t, step (busyWith 4 stateH5) = .next t ∧ stateH5.status.hdrValid = false ∧ t.status.hdrValid = true) ∧
    (∃ t, step (baseValid.withInputs [hostSetHdr 0 1]) = .next t ∧
      baseValid.status.hdrValid = true ∧ t.status.hdrValid = false) ∧
    (∃ t, step (baseValid.withInputs [hostSetHdr 73 1]) = .next t ∧
      baseValid.status.hdrValid = true ∧ t.status.hdrValid = false) ∧
    (∃ t, step (baseValid.withInputs [.reset]) = .next t ∧
      baseValid.status.hdrValid = true ∧ t.status.hdrValid = false) :=
  ⟨next_of (by decide +kernel), next_of (by decide +kernel), next_of (by decide +kernel), next_of (by decide +kernel)⟩

theorem witness_CapabilityRegistersAreConstant :
    (∃ t, step (busyWith 7 base) = .next t) ∧ (∃ t, step State.reset = .next t ∧ Reaches State.reset t) :=
  ⟨⟨_, rfl⟩, ⟨_, rfl, .tail (.refl _) rfl⟩⟩

/-- An idle state whose step goes on, and one whose step is refused. -/
theorem witness_PendingIsNotReadWhileIdle :
    base.status.busy = false ∧ (∃ t, step base = .next t) ∧
    (∃ r, step (base.withInputs [.host (.regRead .half 0)]) = .refused r) := ⟨rfl, ⟨_, rfl⟩, ⟨_, rfl⟩⟩

theorem witness_MemoriesHaveOneWriterEach :
    (∃ t, step (base.withInputs [.host (.srcWrite 0 1)]) = .next t ∧ t.src ≠ base.src) ∧
    (∃ t, step (stateS1.withInputs [.reset]) = .next t ∧ t.src ≠ stateS1.src) ∧
    (∃ t, step (busyWith 2 stateS1) = .next t ∧ t.dst ≠ stateS1.dst) ∧
    (∃ t, step ({ base with dst := [(0, 1)], inputs := [.reset] }) = .next t ∧ t.dst ≠ [(0, 1)]) :=
  ⟨next_of (by decide +kernel), next_of (by decide +kernel), next_of (by decide +kernel), next_of (by decide +kernel)⟩

theorem inv_S1 : (busyWith 2 stateS1).Inv := by constructor <;> decide +kernel

theorem witness_StepKeepsTheInvariant :
    (busyWith 2 stateS1).Inv ∧ ∃ t, step (busyWith 2 stateS1) = .next t ∧ t.status.busy = false :=
  ⟨inv_S1, next_of (by decide +kernel)⟩

/-- Vector E1-rt: the frame of E1 as the SRC of a fresh machine. -/
theorem witness_EncodeThenDecodeRoundTrip :
    ∃ t, exec .encode stateE1 = .next t ∧ t.status.err = false ∧
      ∃ u : State, u.caps = stateE1.caps ∧ u.srcOff.toNat + t.results.outLen.toNat ≤ u.srcLen.toNat ∧
        ∀ k, k < t.results.outLen.toNat → u.src.read (u.srcOff.toNat + k) = t.dst.read k := by
  obtain ⟨t, h, he, hl⟩ := commits_E1
  refine ⟨t, h, he, { base with src := t.dst, srcLen := 300 }, rfl, ?_, ?_⟩
  · rw [hl]; exact Nat.le_refl 300
  · intro k _
    show t.dst.read (0 + k) = t.dst.read k
    rw [Nat.zero_add]

/-- Vector F5: other bytes and a longer window after the consumed bytes. -/
theorem witness_ChainedFrameStartsAfterTheConsumedBytes :
    ∃ t, exec .decode stateF1 = .next t ∧ t.status.err = false ∧
      stateF1.srcOff.toNat + t.results.bytesConsumed.toNat ≤ (314 : Word).toNat ∧
      ∀ k, k < t.results.bytesConsumed.toNat →
        (stateF1.src.write 304 0xEE).read (stateF1.srcOff.toNat + k) = stateF1.src.read (stateF1.srcOff.toNat + k) := by
  obtain ⟨t, h, he, hl⟩ := commits_F1
  refine ⟨t, h, he, ?_, fun k hk => ?_⟩
  · rw [hl]; decide +kernel
  · have h0 : stateF1.srcOff.toNat = 0 := by decide +kernel
    rw [Memory.read_write, if_neg (by omega)]

theorem witness_SplitDecodeAgreesWithDecode : ∃ t, exec .decode stateF1 = .next t ∧ t.status.err = false :=
  commits_F1.imp fun _ h => ⟨h.1, h.2.1⟩

end Tests
end Machine
end Sys2Proof
end

section
/-! PROOF. Facts about registers, flags and the bytes of header words that the statements of 10_state.md rest on. -/

namespace Sys2Proof
namespace Machine

/-! ### Bytes of header words -/

theorem toNat_append_eq {m n : Nat} (x : BitVec m) (y : BitVec n) :
    (x ++ y).toNat = x.toNat * 2 ^ n + y.toNat := by
  rw [BitVec.toNat_append, ← Nat.shiftLeft_add_eq_or_of_lt y.isLt, Nat.shiftLeft_eq]

/-- Byte `k` of a number's little-endian bytes. -/
theorem getElem?_leBytes {n k : Nat} (v : Nat) (hk : k < n) :
    (leBytes n v)[k]? = some (BitVec.ofNat 8 (v / 256 ^ k)) := by
  induction n generalizing v k with
  | zero => omega
  | succ n ih =>
    cases k with
    | zero => simp [leBytes]
    | succ k => simp [leBytes, ih (v / 256) (Nat.lt_of_succ_lt_succ hk), Nat.div_div_eq_div_mul, pow_succ']

/-- Byte `k` of a little-endian header word is its bits `[8k+7:8k]` (10_state.md R33). -/
theorem getElem?_wireOfWord_littleEndian {j k : Nat} (w : Word) (hj : littleEndianWord j = true) (hk : k < 4) :
    (wireOfWord j w)[k]? = some (w.extractLsb' (8 * k) 8) := by
  rw [wireOfWord, if_pos hj, getElem?_leBytes _ hk, BitVec.extractLsb', Nat.shiftRight_eq_div_pow, Nat.pow_mul]

/-- A little-endian header word holds the wire bytes from `4j` in its byte lanes, the first byte lowest. -/
theorem getElem?_eq_lane_parseHeader {f : List Byte} {j k : Nat} (hj : j < 74) (he : littleEndianWord j = true)
    (hf : 4 * j + 4 ≤ f.length) (hk : k < 4) :
    f[4 * j + k]? = some ((parseHeader f)[j].extractLsb' (8 * k) 8) := by
  rw [← getElem?_wireOfWord_littleEndian _ he hk, getElem_parseHeader f j hj,
    wireOfWord_wordOfWire j _ (length_slice_of_le hf), getElem?_slice _ _ _ _ hk]

theorem leNat_append (a b : List Byte) : leNat (a ++ b) = leNat a + 256 ^ a.length * leNat b := by
  induction a with
  | nil => simp [leNat]
  | cons x a ih => rw [List.cons_append, leNat, leNat, ih, List.length_cons, pow_succ']; ring

theorem beNat_append (a b : List Byte) : beNat (a ++ b) = beNat a * 256 ^ b.length + beNat b := by
  rw [beNat, List.reverse_append, leNat_append, List.length_reverse, beNat, beNat]; ring

theorem slice_add (s : List Byte) (a m n : Nat) : slice s a (m + n) = slice s a m ++ slice s (a + m) n := by
  simp [slice, List.take_add, List.drop_drop]

/-- A big-endian header word is the number of its four wire bytes. -/
theorem toNat_wordOfWire_bigEndian {j : Nat} {bs : List Byte} (hj : littleEndianWord j = false)
    (hl : bs.length = 4) : (wordOfWire j bs).toNat = beNat bs := by
  have hlt : beNat bs < 2 ^ 32 := by simpa [hl] using beNat_lt bs
  rw [wordOfWire, hj, if_neg Bool.false_ne_true, BitVec.toNat_ofNat, Nat.mod_eq_of_lt hlt]

/-- Two neighbouring big-endian header words are the halves of the number of their eight wire bytes
(10_state.md R34). -/
theorem toNat_append_parseHeader {f : List Byte} {j : Nat} (hj : j + 1 < 74) (h0 : littleEndianWord j = false)
    (h1 : littleEndianWord (j + 1) = false) (hf : 4 * j + 8 ≤ f.length) :
    ((parseHeader f)[j] ++ (parseHeader f)[j + 1]).toNat = beNat (slice f (4 * j) 8) := by
  have hl0 : (slice f (4 * j) 4).length = 4 := length_slice_of_le (by omega)
  have hl1 : (slice f (4 * j + 4) 4).length = 4 := length_slice_of_le (by omega)
  rw [toNat_append_eq, getElem_parseHeader, getElem_parseHeader, toNat_wordOfWire_bigEndian h0 hl0,
    show 4 * (j + 1) = 4 * j + 4 by ring, toNat_wordOfWire_bigEndian h1 hl1,
    show slice f (4 * j) 8 = _ from slice_add f (4 * j) 4 4, beNat_append, hl1]
  norm_num

/-- Settles O9: a tag is a little-endian word, and the timestamp is two neighbouring big-endian words. -/
theorem tagLanesAndTimestampHalves : Obligations.TagLanesAndTimestampHalves := by
  intro f hf
  refine ⟨fun k hk => ⟨?_, ?_⟩, ?_⟩
  · have h := getElem?_eq_lane_parseHeader (f := f) (j := 0) (by decide) rfl (by omega) hk
    simpa only [Nat.mul_zero, Nat.zero_add, Header.outerTag] using h
  · exact getElem?_eq_lane_parseHeader (f := f) (j := 2) (by decide) rfl (by omega) hk
  · exact toNat_append_parseHeader (f := f) (j := 72) (by decide) rfl rfl (by omega)

/-! ### The word of STATUS -/

/-- A flag is seen at its own bit and nowhere else. -/
theorem getLsbD_flagBit (b : Bool) {i : Nat} (hi : i < 32) (j : Nat) :
    (flagBit b i).getLsbD j = (b && decide (i = j)) := by
  cases b with
  | false => simp [flagBit]
  | true =>
    have hlt : i = j → j < 32 := fun h => h ▸ hi
    simpa only [flagBit, if_true, BitVec.getLsbD_ofNat, Nat.testBit_two_pow, Bool.true_and, Bool.and_eq_right_iff_imp,
      decide_eq_true_eq] using hlt

/-- Bit `j` of STATUS, from its flags (10_state.md R24). -/
theorem getLsbD_statusWord (f : Status) (j : Nat) :
    f.word.getLsbD j = ((f.busy && decide (0 = j)) || (f.done && decide (1 = j)) || (f.err && decide (2 = j)) ||
      (f.hdrValid && decide (3 = j)) || (f.wrIgnored && decide (4 = j))) := by
  simp only [Status.word, BitVec.getLsbD_or, getLsbD_flagBit, Nat.reduceLT]

/-- Settles O42. -/
theorem statusReadShowsTheFlags : Obligations.StatusReadShowsTheFlags := by
  intro s
  refine ⟨s.status.word, rfl, ?_, ?_, ?_, ?_, ?_, fun i hi => ?_⟩
  case refine_6 =>
    have hne : ∀ j < 5, j ≠ i := fun j hj => by omega
    simp [getLsbD_statusWord, hne]
  all_goals rw [getLsbD_statusWord]; simp

/-! ### Register writes of an idle machine -/

theorem hostTurn_regWrite_idle {s : State} {offset : Nat} {r : Reg} (v : Word) (hs : s.status.busy = false)
    (hr : regAccess .word offset = .ok r) : hostTurn (.regWrite .word offset v) s = .next (s.writeReg r v) :=
  (hostTurn_eq_next_iff ..).mpr (.written offset v r hr hs)

theorem hostTurn_regRead {offset : Nat} {r : Reg} (s : State) (hr : regAccess .word offset = .ok r) :
    hostTurn (.regRead .word offset) s = .next (s.logRead (.reg offset (s.readReg r))) :=
  (hostTurn_eq_next_iff ..).mpr (.regRead offset r hr)

theorem regAccess_hrf (k : Fin 74) : regAccess .word (0x100 + 4 * k.val) = .ok (.hrf k) :=
  regAccess_of_regAt (by omega) (regAt_hrf k)

theorem clampToSrc_eq_ofNat_min (s : State) (v : Word) :
    s.clampToSrc v = BitVec.ofNat 32 (min v.toNat s.caps.srcSize.toNat) := by
  rw [← toNat_clampToSrc, BitVec.ofNat_toNat, BitVec.setWidth_eq]

/-- Settles O38. -/
theorem sourceWindowWritesAreClamped : Obligations.SourceWindowWritesAreClamped := by
  intro s v hs
  have hoff : regAccess .word 0x00C = .ok .srcOff := rfl
  have hlen : regAccess .word 0x010 = .ok .srcLen := rfl
  rw [← clampToSrc_eq_ofNat_min]
  exact ⟨hostTurn_regWrite_idle v hs hoff, hostTurn_regWrite_idle v hs hlen⟩

/-- Settles O39. -/
theorem headerWriteStoresAndClearsValid : Obligations.HeaderWriteStoresAndClearsValid := by
  intro s k v hs
  refine ⟨s.hrf.set k.val v, by simp, fun j hj => ?_, hostTurn_regWrite_idle v hs (regAccess_hrf k), fun u hu => ?_⟩
  · have hne : k.val ≠ j.val := fun h => hj (Fin.ext h.symm)
    simp [hne]
  · have hread : u.readReg (.hrf k) = v := by simp [State.readReg, hu]
    rw [hostTurn_regRead u (regAccess_hrf k), hread]
    rfl

/-! ### The state after reset -/

theorem getElem_reset_hrf (k : Fin 74) : State.reset.hrf[k] = 0 := by simp [State.reset]

/-- Settles O47. -/
theorem resetStateHoldsTheResetValues : Obligations.ResetStateHoldsTheResetValues :=
  ⟨rfl, rfl, rfl, rfl, rfl, rfl, rfl, getElem_reset_hrf, Memory.read_nil, Memory.read_nil⟩

/-- Settles O55: the memories are empty, no flag is set, and every register that is bounded holds 0. -/
theorem resetSatisfiesTheInvariant : Obligations.ResetSatisfiesTheInvariant where
  srcCanonical := reset_memories_wf.1
  dstCanonical := reset_memories_wf.2
  srcInside := fun _ h => (List.not_mem_nil h).elim
  dstInside := fun _ h => (List.not_mem_nil h).elim
  srcOffClamped := Nat.zero_le _
  srcLenClamped := Nat.zero_le _
  pendingIsCmd := fun _ => rfl
  busyClears := fun _ => ⟨rfl, rfl⟩
  errIsDone := fun h => h
  errHasCode := ⟨fun h => absurd h Bool.false_ne_true, fun h => absurd rfl h⟩
  codeAssigned := Nat.zero_le _
  errResultsZero := fun _ => rfl
  outLenFits := Nat.zero_le _

end Machine
end Sys2Proof
end

section
/-! PROOF. The step: whose turn it is, and what an idle engine does. -/

namespace Sys2Proof
namespace Machine

/-! ### Whose turn it is -/

theorem step_of_no_input {s : State} (h : s.inputs = []) : step s = engineTurn s := by simp [step, h]

theorem step_of_engineTurn {s : State} {rest : List Input} (h : s.inputs = .engineTurn :: rest) :
    step s = engineTurn (s.withInputs rest) := by
  simp [step, h, State.withInputs]

theorem step_of_host {s : State} {x : Transaction} {rest : List Input} (h : s.inputs = .host x :: rest) :
    step s = hostTurn x (s.withInputs rest) := by
  simp [step, h, State.withInputs]

theorem step_of_reset {s : State} {rest : List Input} (h : s.inputs = .reset :: rest) :
    step s = .next (s.withInputs rest).resetInput := by
  simp [step, h, State.withInputs]

/-- The three agents of a step, with no difference made between an engine's turn that was listed and one that was
not. -/
theorem step_agent_cases {s t : State} (h : step s = .next t) :
    (∃ l, engineTurn (s.withInputs l) = .next t) ∨
    (∃ x rest, s.inputs = .host x :: rest ∧ HostEffect (s.withInputs rest) x t) ∨
    (∃ rest, s.inputs = .reset :: rest ∧ t = (s.withInputs rest).resetInput) := by
  rcases step_cases h with ⟨-, h⟩ | ⟨rest, -, h⟩ | h | h
  · exact .inl ⟨s.inputs, h⟩
  · exact .inl ⟨rest, h⟩
  · exact .inr (.inl h)
  · exact .inr (.inr h)

/-! ### The engine's turn, case by case -/

theorem engineTurn_of_idle {s : State} (h : s.status.busy = false) : engineTurn s = .next s := by
  simp [engineTurn, h]

theorem engineTurn_of_command {s : State} {i : Instr} (hb : s.status.busy = true) (hi : decode s.pending = .ok i) :
    engineTurn s = exec i s := by simp [engineTurn, hb, hi]

theorem engineTurn_of_illegal {s : State} {e : Illegal} (hb : s.status.busy = true)
    (he : decode s.pending = .error e) : engineTurn s = .next (s.completeError .illegalCommand) := by
  simp [engineTurn, hb, he]

theorem engineTurn_ne_refused (s : State) (r : Refusal) : engineTurn s ≠ .refused r := by
  cases hb : s.status.busy with
  | false => simp [engineTurn_of_idle hb]
  | true =>
    cases hd : decode s.pending with
    | ok i => simpa [engineTurn_of_command hb hd] using exec_ne_refused i s r
    | error e => simp [engineTurn_of_illegal hb hd]

/-- Settles O4. -/
theorem stepExecutesPendingCommand : Obligations.StepExecutesPendingCommand :=
  ⟨fun _ _ hb hi => ⟨fun hn => (step_of_no_input hn).trans (engineTurn_of_command hb hi),
    fun _ hr => (step_of_engineTurn hr).trans (engineTurn_of_command hb hi)⟩,
    fun _ _ _ hx => step_of_host hx⟩

/-- Settles O48. -/
theorem idleEngineChangesNothing : Obligations.IdleEngineChangesNothing :=
  fun _ hs => ⟨fun hn => (step_of_no_input hn).trans (engineTurn_of_idle hs),
    fun _ hr => (step_of_engineTurn hr).trans (engineTurn_of_idle hs)⟩

/-! ### PENDING while idle (10_state.md R42) -/

/-- `s` with another word in PENDING. -/
def State.withPending (s : State) (p : Word) : State := { s with pending := p }

/-- A host transaction does not read PENDING. -/
theorem HostEffect.of_pending {s t : State} {x : Transaction} (h : HostEffect s x t) (p : Word) :
    ∃ t', HostEffect (s.withPending p) x t' ∧ { t' with pending := t.pending } = t := by
  cases h with
  | dropped offset v r hr hb => exact ⟨_, .dropped offset v r hr hb, rfl⟩
  | written offset v r hr hb => exact ⟨_, .written offset v r hr hb, by cases r <;> rfl⟩
  | regRead offset r hr => exact ⟨_, .regRead offset r hr, by cases r <;> rfl⟩
  | srcWritten a v ha hb => exact ⟨_, .srcWritten a v ha hb, rfl⟩
  | srcRead a ha => exact ⟨_, .srcRead a ha, rfl⟩
  | dstRead a ha hb => exact ⟨_, .dstRead a ha hb, rfl⟩
  | dstReadBusy a ha hb => exact ⟨_, .dstReadBusy a ha hb, rfl⟩

/-- Whether a host transaction is refused depends on BUSY and the sizes of the memories alone. -/
theorem hostTurn_refused_congr {s s' : State} {x : Transaction} {r : Refusal} (hc : s'.caps = s.caps)
    (hb : s'.status.busy = s.status.busy) (h : hostTurn x s = .refused r) : hostTurn x s' = .refused r := by
  cases x with
  | regWrite w offset v | regRead w offset =>
    simp only [hostTurn] at h ⊢
    cases ha : regAccess w offset with
    | error e => simpa [ha] using h
    | ok q => simp [ha] at h
  | srcWrite a v | srcRead a | dstRead a =>
    simp only [hostTurn, hc, hb] at h ⊢
    split_ifs at h ⊢ <;> simp_all

/-- Only a host transaction is refused. -/
theorem exists_host_of_step_refused {s : State} {r : Refusal} (h : step s = .refused r) :
    ∃ x rest, s.inputs = .host x :: rest ∧ hostTurn x (s.withInputs rest) = .refused r := by
  unfold step at h
  split at h
  · exact absurd h (engineTurn_ne_refused _ r)
  · exact absurd h (engineTurn_ne_refused _ r)
  · next x rest hi => exact ⟨x, rest, hi, h⟩
  · cases h

/-- Only a busy engine faults. -/
theorem busy_of_step_fault {s : State} {r : Fault} (h : step s = .fault r) : s.status.busy = true := by
  by_contra hb
  have hs : s.status.busy = false := by simpa using hb
  unfold step at h
  split at h
  · exact absurd ((engineTurn_of_idle hs).symm.trans h) nofun
  · next rest _ => exact absurd ((engineTurn_of_idle (s := s.withInputs rest) hs).symm.trans h) nofun
  · exact absurd h (hostTurn_ne_fault _ _ r)
  · cases h

/-- While idle, a step that goes on goes on alike with any other PENDING, up to PENDING itself. -/
theorem step_of_pending_idle {s t : State} (p : Word) (hs : s.status.busy = false) (h : step s = .next t) :
    ∃ t', step (s.withPending p) = .next t' ∧ { t' with pending := t.pending } = t := by
  rcases step_cases h with ⟨hi, h⟩ | ⟨rest, hi, h⟩ | ⟨x, rest, hi, h⟩ | ⟨rest, hi, rfl⟩
  · obtain rfl := Host.Outcome.next.inj ((engineTurn_of_idle hs).symm.trans h)
    exact ⟨s.withPending p, (step_of_no_input (s := s.withPending p) hi).trans (engineTurn_of_idle hs), rfl⟩
  · obtain rfl := Host.Outcome.next.inj ((engineTurn_of_idle (s := s.withInputs rest) hs).symm.trans h)
    exact ⟨(s.withInputs rest).withPending p,
      (step_of_engineTurn (s := s.withPending p) hi).trans (engineTurn_of_idle hs), rfl⟩
  · obtain ⟨t', h', ht⟩ := h.of_pending p
    exact ⟨t', (step_of_host (s := s.withPending p) hi).trans ((hostTurn_eq_next_iff ..).mpr h'), ht⟩
  · exact ⟨_, step_of_reset (s := s.withPending p) hi, rfl⟩

/-- Settles O53. -/
theorem pendingIsNotReadWhileIdle : Obligations.PendingIsNotReadWhileIdle := by
  intro s p hs
  refine ⟨fun t h => step_of_pending_idle p hs h, fun r h => ?_, fun r h => ?_⟩
  · obtain ⟨x, rest, hi, h⟩ := exists_host_of_step_refused h
    exact (step_of_host (s := s.withPending p) hi).trans (hostTurn_refused_congr (s := s.withInputs rest) rfl rfl h)
  · simp [busy_of_step_fault h] at hs

end Machine
end Sys2Proof
end

section
/-! PROOF. What a step does to the capability registers, WR_IGNORED and HDR_VALID (10_state.md R24, R28, R29,
R40). -/

namespace Sys2Proof
namespace Machine

/-! ### The capability registers -/

theorem writeReg_caps (s : State) (r : Reg) (v : Word) : (s.writeReg r v).caps = s.caps := by cases r <;> rfl

theorem HostEffect.caps_eq {s t : State} {x : Transaction} (h : HostEffect s x t) : t.caps = s.caps := by
  cases h with
  | written _ v r => exact writeReg_caps s r v
  | dropped | regRead | srcWritten | srcRead | dstRead | dstReadBusy => rfl

theorem engineTurn_caps {s t : State} (h : engineTurn s = .next t) : t.caps = s.caps := by
  rcases engineTurn_effect h with ⟨-, rfl⟩ | ⟨-, _, c, -, rfl⟩ | ⟨-, e, rfl⟩
  · rfl
  · exact State.completeSuccess_caps s c
  · exact State.completeError_caps s e

theorem step_caps {s t : State} (h : step s = .next t) : t.caps = s.caps := by
  rcases step_agent_cases h with ⟨l, h⟩ | ⟨x, rest, -, h⟩ | ⟨rest, -, rfl⟩
  · exact engineTurn_caps (s := s.withInputs l) h
  · exact h.caps_eq
  · rfl

theorem Reaches.caps_eq {s t : State} (h : Reaches s t) : t.caps = s.caps := by
  induction h with
  | refl => rfl
  | tail _ hstep ih => exact (step_caps hstep).trans ih

/-- Settles O52. -/
theorem capabilityRegistersAreConstant : Obligations.CapabilityRegistersAreConstant :=
  ⟨fun _ _ => step_caps, fun _ => Reaches.caps_eq⟩

/-! ### WR_IGNORED -/

theorem writeReg_wrIgnored {r : Reg} (s : State) (v : Word) (hr : r ≠ .cmd) :
    (s.writeReg r v).status.wrIgnored = s.status.wrIgnored := by
  cases r with
  | cmd => exact absurd rfl hr
  | _ => rfl

/-- The engine neither sets nor clears WR_IGNORED. -/
theorem engineTurn_wrIgnored {s t : State} (h : engineTurn s = .next t) :
    t.status.wrIgnored = s.status.wrIgnored := by
  rcases engineTurn_effect h with ⟨-, rfl⟩ | ⟨-, _, c, -, rfl⟩ | ⟨-, e, rfl⟩ <;> simp

/-- What the host does to WR_IGNORED: a dropped register write sets it, an accept clears it, the rest leaves it. -/
theorem HostEffect.wrIgnored_cases {s t : State} {x : Transaction} (h : HostEffect s x t) :
    t.status.wrIgnored = s.status.wrIgnored ∨
    (s.status.busy = true ∧ (∃ offset v, x = .regWrite .word offset v) ∧ t.status.wrIgnored = true) ∨
    (s.status.busy = false ∧ (∃ w, x = .regWrite .word 0x000 w) ∧ t.status.wrIgnored = false) := by
  cases h with
  | dropped offset v r hr hb => exact .inr (.inl ⟨hb, ⟨offset, v, rfl⟩, rfl⟩)
  | written offset v r hr hb =>
    by_cases hc : r = .cmd
    · subst hc
      obtain rfl := offset_of_cmd hr
      exact .inr (.inr ⟨hb, ⟨v, rfl⟩, rfl⟩)
    · exact .inl (writeReg_wrIgnored s v hc)
  | regRead | srcWritten | srcRead | dstRead | dstReadBusy => exact .inl rfl

/-- A register write while BUSY = 1 leaves WR_IGNORED set. -/
theorem HostEffect.wrIgnored_of_busy {s t : State} {offset : Nat} {v : Word}
    (h : HostEffect s (.regWrite .word offset v) t) (hb : s.status.busy = true) : t.status.wrIgnored = true := by
  cases h with
  | dropped => rfl
  | written _ _ _ _ hi => exact absurd (hb.symm.trans hi) nofun

/-- An accept leaves WR_IGNORED clear. -/
theorem HostEffect.wrIgnored_of_accept {s t : State} {w : Word} (h : HostEffect s (.regWrite .word 0x000 w) t)
    (hi : s.status.busy = false) : t.status.wrIgnored = false := by
  cases h with
  | dropped _ _ _ _ hb => exact absurd (hb.symm.trans hi) nofun
  | written _ _ r hr =>
    obtain rfl : Reg.cmd = r := Except.ok.inj hr
    rfl

/-- Everything a step can do to WR_IGNORED. -/
theorem step_wrIgnored_cases {s t : State} (h : step s = .next t) :
    t.status.wrIgnored = s.status.wrIgnored ∨
    (t.status.wrIgnored = true ∧ s.status.busy = true ∧
      ∃ offset v rest, s.inputs = .host (.regWrite .word offset v) :: rest) ∨
    (t.status.wrIgnored = false ∧ s.status.busy = false ∧
      ∃ w rest, s.inputs = .host (.regWrite .word 0x000 w) :: rest) ∨
    (t.status.wrIgnored = false ∧ ∃ rest, s.inputs = .reset :: rest) := by
  rcases step_agent_cases h with ⟨l, h⟩ | ⟨x, rest, hi, h⟩ | ⟨rest, hi, rfl⟩
  · exact .inl (engineTurn_wrIgnored (s := s.withInputs l) h)
  · rcases h.wrIgnored_cases with hk | ⟨hb, ⟨offset, v, rfl⟩, hk⟩ | ⟨hb, ⟨w, rfl⟩, hk⟩
    · exact .inl hk
    · exact .inr (.inl ⟨hk, hb, offset, v, rest, hi⟩)
    · exact .inr (.inr (.inl ⟨hk, hb, w, rest, hi⟩))
  · exact .inr (.inr (.inr ⟨rfl, rest, hi⟩))

/-- A step whose next input is a host transaction has that transaction's effect. -/
theorem hostEffect_of_step {s t : State} {x : Transaction} {rest : List Input} (h : step s = .next t)
    (hi : s.inputs = .host x :: rest) : HostEffect (s.withInputs rest) x t :=
  (hostTurn_eq_next_iff ..).mp ((step_of_host hi).symm.trans h)

/-- Settles O50. -/
theorem writeIgnoredIsSticky : Obligations.WriteIgnoredIsSticky := by
  intro s t h
  refine ⟨fun h0 h1 => ?rise, fun h1 h0 => ?fall, fun offset v rest hb hi => ?dropped, fun w rest hs hi => ?accept,
    fun rest hi => ?reset⟩
  case rise =>
    rcases step_wrIgnored_cases h with hk | ⟨-, hw⟩ | ⟨hk, -⟩ | ⟨hk, -⟩
    · simp [hk, h0] at h1
    · exact hw
    · simp [hk] at h1
    · simp [hk] at h1
  case fall =>
    rcases step_wrIgnored_cases h with hk | ⟨hk, -⟩ | ⟨-, ha⟩ | ⟨-, hr⟩
    · simp [hk, h1] at h0
    · simp [hk] at h0
    · exact .inl ha
    · exact .inr hr
  case dropped => exact (hostEffect_of_step h hi).wrIgnored_of_busy hb
  case accept => exact (hostEffect_of_step h hi).wrIgnored_of_accept hs
  case reset =>
    obtain rfl := Host.Outcome.next.inj ((step_of_reset hi).symm.trans h)
    rfl

/-! ### HDR_VALID -/

/-- The only code with which OP can select a command is the one the encoder writes (30_encoding.md R84). -/
theorem encode_of_commandOfOp {op : BitVec 4} {i : Instr} (h : commandOfOp op = some i) :
    encode i = 0#28 ++ op := by
  unfold commandOfOp at h
  split at h <;> cases h <;> decide

/-- A command word is its two fields. -/
theorem rsvdField_append_opField (w : Word) : rsvdField w ++ opField w = w :=
  BitVec.extractLsb'_append_extractLsb'

/-- A word that decodes to a command is that command's word (30_encoding.md R84). -/
theorem eq_encode_of_decode {w : Word} {i : Instr} (h : decode w = .ok i) : w = encode i := by
  unfold decode at h
  split at h
  · next hr =>
    split at h
    · next j hj =>
      obtain rfl := Except.ok.inj h
      calc w = rsvdField w ++ opField w := (rsvdField_append_opField w).symm
        _ = 0#28 ++ opField w := by rw [hr]; rfl
        _ = encode j := (encode_of_commandOfOp hj).symm
    · cases h
  · cases h

/-- The words of the commands that write a header image: DECODE_HEADER, DECODE, ENCODE_HEADER and ENCODE
(10_state.md R28, 30_encoding.md R84). -/
def HeaderWritingWord (w : Word) : Prop :=
  w = 0x00000001#32 ∨ w = 0x00000003#32 ∨ w = 0x00000004#32 ∨ w = 0x00000006#32

/-- A command that commits a header image is one of the four. -/
theorem headerWritingWord_of_commits {i : Instr} {s : State} {c : Commit} (h : Commits i s c)
    (hc : c.header.isSome = true) : HeaderWritingWord (encode i) := by
  cases i with
  | decodeHeader => exact .inl rfl
  | decode => exact .inr (.inl rfl)
  | encodeHeader => exact .inr (.inr (.inl rfl))
  | encode => exact .inr (.inr (.inr rfl))
  | destride =>
    obtain ⟨g, raw, -, -, -, -, rfl⟩ := h
    cases hc
  | restride =>
    obtain ⟨g, dense, -, -, -, -, rfl⟩ := h
    cases hc

/-- What the engine does to HDR_VALID: a header-writing command that succeeds sets it, the rest leaves it. -/
theorem engineTurn_hdrValid_cases {s t : State} (h : engineTurn s = .next t) :
    t.status.hdrValid = s.status.hdrValid ∨
    (t.status.hdrValid = true ∧ s.status.busy = true ∧ t.status.busy = false ∧ t.status.done = true ∧
      t.status.err = false ∧ HeaderWritingWord s.pending) := by
  rcases engineTurn_cases h with ⟨-, rfl⟩ | ⟨hb, i, hi, h⟩ | ⟨-, -, rfl⟩
  · exact .inl rfl
  · rcases exec_cases h with ⟨c, hc, rfl⟩ | ⟨e, -, rfl⟩
    · cases hh : c.header.isSome with
      | false => exact .inl (by simp [hh])
      | true =>
        rw [eq_encode_of_decode hi]
        exact .inr ⟨by simp [hh], hb, rfl, rfl, rfl, headerWritingWord_of_commits hc hh⟩
    · exact .inl rfl
  · exact .inl rfl

theorem writeReg_hdrValid {r : Reg} (s : State) (v : Word) (hr : ∀ k, r ≠ .hrf k) :
    (s.writeReg r v).status.hdrValid = s.status.hdrValid := by
  cases r with
  | hrf k => exact absurd rfl (hr k)
  | _ => rfl

/-- What the host does to HDR_VALID: a write to an HRF word while idle clears it, the rest leaves it. -/
theorem HostEffect.hdrValid_cases {s t : State} {x : Transaction} (h : HostEffect s x t) :
    t.status.hdrValid = s.status.hdrValid ∨
    (t.status.hdrValid = false ∧ s.status.busy = false ∧
      ∃ (k : Fin 74) (v : Word), x = .regWrite .word (0x100 + 4 * k.val) v) := by
  cases h with
  | written offset v r hr hb =>
    by_cases hk : ∃ k, r = .hrf k
    · obtain ⟨k, rfl⟩ := hk
      obtain rfl := offset_of_hrf hr
      exact .inr ⟨rfl, hb, k, v, rfl⟩
    · exact .inl (writeReg_hdrValid s v fun k h => hk ⟨k, h⟩)
  | dropped | regRead | srcWritten | srcRead | dstRead | dstReadBusy => exact .inl rfl

/-- Everything a step can do to HDR_VALID. -/
theorem step_hdrValid_cases {s t : State} (h : step s = .next t) :
    t.status.hdrValid = s.status.hdrValid ∨
    (t.status.hdrValid = true ∧ s.status.busy = true ∧ t.status.busy = false ∧ t.status.done = true ∧
      t.status.err = false ∧ HeaderWritingWord s.pending) ∨
    (t.status.hdrValid = false ∧ s.status.busy = false ∧ ∃ (k : Fin 74) (v : Word) (rest : List Input),
      s.inputs = .host (.regWrite .word (0x100 + 4 * k.val) v) :: rest) ∨
    (t.status.hdrValid = false ∧ ∃ rest, s.inputs = .reset :: rest) := by
  rcases step_agent_cases h with ⟨l, h⟩ | ⟨x, rest, hi, h⟩ | ⟨rest, hi, rfl⟩
  · exact (engineTurn_hdrValid_cases (s := s.withInputs l) h).imp_right .inl
  · rcases h.hdrValid_cases with hk | ⟨hk, hb, k, v, rfl⟩
    · exact .inl hk
    · exact .inr (.inr (.inl ⟨hk, hb, k, v, rest, hi⟩))
  · exact .inr (.inr (.inr ⟨rfl, rest, hi⟩))

/-- Settles O51. -/
theorem headerValidChangesOnlyAsStated : Obligations.HeaderValidChangesOnlyAsStated := by
  intro s t h
  refine ⟨fun h0 h1 => ?rise, fun h1 h0 => ?fall⟩
  case rise =>
    rcases step_hdrValid_cases h with hk | ⟨-, hc⟩ | ⟨hk, -⟩ | ⟨hk, -⟩
    · simp [hk, h0] at h1
    · exact hc
    · simp [hk] at h1
    · simp [hk] at h1
  case fall =>
    rcases step_hdrValid_cases h with hk | ⟨hk, -⟩ | ⟨-, hw⟩ | ⟨-, hr⟩
    · simp [hk, h1] at h0
    · simp [hk] at h0
    · exact .inl hw
    · exact .inr hr

end Machine
end Sys2Proof
end

section
/-! PROOF. Completion: a command stops with a fault only at an unwritten byte of the window, and the result registers
of a payload decode hold their exact values (10_state.md R25 to R27, R39). -/

namespace Sys2Proof
namespace Machine

/-! ### Faults and completion -/

/-- The bytes available are those from SRC_OFF to SRC_LEN (10_state.md R38). -/
theorem lt_avail_iff (s : State) (k : Nat) : k < s.avail ↔ s.srcOff.toNat + k < s.srcLen.toNat := by
  unfold State.avail; split <;> omega

/-- Some byte of the window `[SRC_OFF, SRC_LEN)` is unwritten. -/
def State.WindowHole (s : State) : Prop :=
  ∃ a, s.srcOff.toNat ≤ a ∧ a < s.srcLen.toNat ∧ s.src.read a = none

/-- A read inside the window that finds no bytes meets an unwritten one. -/
theorem windowHole_of_readBytes {s : State} {d n : Nat} (hn : d + n ≤ s.avail)
    (h : s.src.readBytes (s.srcOff.toNat + d) n = none) : s.WindowHole := by
  have hns : ¬ (s.src.readBytes (s.srcOff.toNat + d) n).isSome := by simp [h]
  rw [Memory.isSome_readBytes_iff] at hns
  push Not at hns
  obtain ⟨k, hk, hr⟩ := hns
  have hlt := (lt_avail_iff s (d + k)).mp (by omega)
  exact ⟨s.srcOff.toNat + d + k, by omega, by omega, by simpa using hr⟩

/-- A part of a command that faults only when the window has an unwritten byte. -/
def Cmd.FaultsAtHole (s : State) {α : Type} (x : Cmd α) : Prop := ∀ r, x = .error (.fault r) → s.WindowHole

theorem faultsAtHole_ok (s : State) {α : Type} (a : α) : Cmd.FaultsAtHole s (.ok a) := fun _ h => nomatch h

/-- A sequence faults only at a hole when its first part does, and its second part after every value of the first. -/
theorem faultsAtHole_bind {s : State} {α β : Type} {x : Cmd α} {f : α → Cmd β} (hx : x.FaultsAtHole s)
    (hf : ∀ a, x = .ok a → (f a).FaultsAtHole s) : (x >>= f).FaultsAtHole s := by
  intro r h
  rcases (Cmd.bind_eq_error_iff x f _).mp h with h | ⟨a, ha, h⟩
  · exact hx r h
  · exact hf a ha r h

/-- After a check the rest of the command runs only where its condition does not hold. -/
theorem faultsAtHole_raiseIf_bind {s : State} {β : Type} {p : Prop} [Decidable p] {e : ErrorKind}
    {f : Unit → Cmd β} (hf : ¬ p → (f ()).FaultsAtHole s) : (raiseIf p e >>= f).FaultsAtHole s :=
  faultsAtHole_bind (fun r h => by simp at h) fun u hu => hf ((raiseIf_eq_ok_iff e u).mp hu)

/-- A read of available bytes. -/
theorem faultsAtHole_memRead_bind {s : State} {β : Type} {d n : Nat} {f : List Byte → Cmd β} (hn : d + n ≤ s.avail)
    (hf : ∀ bs, (f bs).FaultsAtHole s) : (s.memRead (s.srcOff.toNat + d) n >>= f).FaultsAtHole s :=
  faultsAtHole_bind (fun _ h => windowHole_of_readBytes hn ((memRead_eq_error_iff ..).mp h).1) fun bs _ => hf bs

theorem faultsAtHole_decodeGeometry_bind {s : State} {β : Type} {slot : Fin 2} {h : Header}
    {f : DecodeGeometry → Cmd β} (hf : ∀ g, (f g).FaultsAtHole s) :
    (validateDecodeGeometry slot h >>= f).FaultsAtHole s :=
  faultsAtHole_bind (fun r hr => by simp [validateDecodeGeometry_eq_error_iff] at hr) fun g _ => hf g

theorem faultsAtHole_encodeGeometry_bind {s : State} {β : Type} {h : Header} {f : EncodeGeometry → Cmd β}
    (hf : ∀ g, (f g).FaultsAtHole s) : (encodeGeometry h >>= f).FaultsAtHole s :=
  faultsAtHole_bind (fun r hr => by simp [encodeGeometry_eq_error_iff] at hr) fun g _ => hf g

/-- A command faults only where a byte of its window is unwritten (20_memory.md R77, R78): it reads only bytes it
has checked to be available. -/
theorem windowHole_of_exec_fault {i : Instr} {s : State} {r : Fault} (h : exec i s = .fault r) : s.WindowHole := by
  cases i with
  | decodeHeader =>
    refine faultsAtHole_raiseIf_bind (fun ha => ?_) r ((finish_eq_fault_iff s _ r).mp h)
    exact faultsAtHole_memRead_bind (d := 0) (by omega) fun f => faultsAtHole_ok s _
  | destride =>
    refine faultsAtHole_decodeGeometry_bind (fun g => ?_) r ((finish_eq_fault_iff s _ r).mp h)
    refine faultsAtHole_raiseIf_bind fun ha => faultsAtHole_raiseIf_bind fun _ => ?_
    exact faultsAtHole_memRead_bind (d := 0) (by omega) fun raw => faultsAtHole_ok s _
  | decode =>
    refine faultsAtHole_raiseIf_bind (fun ha => ?_) r ((finish_eq_fault_iff s _ r).mp h)
    refine faultsAtHole_memRead_bind (d := 0) (by omega) fun f => faultsAtHole_decodeGeometry_bind fun g => ?_
    refine faultsAtHole_raiseIf_bind fun hp => faultsAtHole_raiseIf_bind fun _ => ?_
    exact faultsAtHole_memRead_bind (by omega) fun raw => faultsAtHole_ok s _
  | encodeHeader =>
    refine faultsAtHole_encodeGeometry_bind (fun g => ?_) r ((finish_eq_fault_iff s _ r).mp h)
    exact faultsAtHole_raiseIf_bind fun _ => faultsAtHole_ok s _
  | restride | encode =>
    refine faultsAtHole_encodeGeometry_bind (fun g => ?_) r ((finish_eq_fault_iff s _ r).mp h)
    refine faultsAtHole_raiseIf_bind fun ha => faultsAtHole_raiseIf_bind fun _ => ?_
    exact faultsAtHole_memRead_bind (d := 0) (by omega) fun dense => faultsAtHole_ok s _

theorem windowHole_of_engineTurn_fault {s : State} {r : Fault} (h : engineTurn s = .fault r) : s.WindowHole := by
  cases hb : s.status.busy with
  | false => exact absurd ((engineTurn_of_idle hb).symm.trans h) nofun
  | true =>
    cases hd : decode s.pending with
    | ok i => exact windowHole_of_exec_fault ((engineTurn_of_command hb hd).symm.trans h)
    | error e => exact absurd ((engineTurn_of_illegal hb hd).symm.trans h) nofun

theorem code_ne_zero (e : ErrorKind) : e.code ≠ 0 := by cases e <;> decide

/-- Every turn of a busy engine that goes on completes the pending word (10_state.md R26, R27). -/
theorem engineTurn_completes {s t : State} (hb : s.status.busy = true) (h : engineTurn s = .next t) :
    t.status.busy = false ∧ t.status.done = true ∧ (t.status.err = true ↔ t.errcode ≠ 0) := by
  rcases engineTurn_effect h with ⟨hs, -⟩ | ⟨-, _, c, -, rfl⟩ | ⟨-, e, rfl⟩
  · simp [hb] at hs
  · simp
  · exact ⟨rfl, rfl, iff_of_true rfl (code_ne_zero e)⟩

/-- Settles O26: the engine's turn is not refused, and with a written window it does not fault. -/
theorem acceptedCommandCompletes : Obligations.AcceptedCommandCompletes := by
  intro s hb hi hw
  rw [step_of_no_input hi]
  cases h : engineTurn s with
  | next t => exact ⟨t, rfl, engineTurn_completes hb h⟩
  | fault r =>
    obtain ⟨a, hlo, hhi, hnone⟩ := windowHole_of_engineTurn_fault h
    exact absurd (hw a hlo hhi) (by simp [hnone])
  | refused r => exact absurd h (engineTurn_ne_refused s r)

/-! ### The results of a payload decode -/

theorem toNat_u32 {v : Nat} (h : v < 2 ^ 32) : (u32 v).toNat = v := by
  rw [u32, BitVec.toNat_ofNat, Nat.mod_eq_of_lt h]

/-- A header word that holds a number holds one below 2^31. -/
theorem lt_of_s32_eq {w : Word} {n : Nat} (h : s32 w = n) : n < 2 ^ 31 := by
  have := BitVec.toInt_lt (x := w)
  simp only [s32] at h
  omega

/-- A header image has at most one admitted geometry. -/
theorem DecodeGeometryOk.unique {slot : Fin 2} {h : Header} {g g' : DecodeGeometry} (hg : DecodeGeometryOk slot h g)
    (hg' : DecodeGeometryOk slot h g') : g = g' :=
  Except.ok.inj (((validateDecodeGeometry_eq_ok_iff slot h g).mpr hg).symm.trans
    ((validateDecodeGeometry_eq_ok_iff slot h g').mpr hg'))

/-- No more groups are kept than there are, in a row of at least `dx` groups (41_payload_decode.md R135). -/
theorem keptCount_le {groups block dx : Nat} (h : dx ≤ block) : keptCount groups block dx ≤ groups :=
  calc keptCount groups block dx ≤ groups / block * block + groups % block :=
        Nat.add_le_add (Nat.mul_le_mul_left _ h) (Nat.min_le_left _ _)
    _ = groups := Nat.div_add_mod' groups block

/-- The row geometry of an admitted geometry fits in the result registers. -/
theorem DecodeGeometryOk.rowGeometry_lt {slot : Fin 2} {h : Header} {g : DecodeGeometry}
    (hg : DecodeGeometryOk slot h g) :
    (deriveGeometry g.stride g.pc g.dx).sg < 2 ^ 31 ∧ (deriveGeometry g.stride g.pc g.dx).fill < 2 ^ 31 ∧
      (deriveGeometry g.stride g.pc g.dx).block < 2 ^ 32 := by
  have hdx : g.dx < 2 ^ 31 := lt_of_s32_eq hg.width
  have hstride : g.stride < 2 ^ 31 := lt_of_s32_eq hg.stride
  have hsg : g.stride / g.pc ≤ g.stride := Nat.div_le_self _ _
  have hpos : 0 < g.stride / g.pc := Nat.div_pos (Nat.le_of_dvd hg.stridePos hg.strideWhole) hg.planeCountPos
  have hfill := Nat.mod_lt (g.stride / g.pc - g.dx % (g.stride / g.pc)) hpos
  simp only [deriveGeometry]
  omega

/-- The results of a payload decode, as numbers, when the consumed and the kept bytes fit in a register. -/
theorem DecodeGeometryOk.toNat_decodeResults {slot : Fin 2} {h : Header} {g : DecodeGeometry} {consumed : Nat}
    (hg : DecodeGeometryOk slot h g) (hc : consumed < 2 ^ 32) (hk : keptBytes g < 2 ^ 32) :
    let r := deriveGeometry g.stride g.pc g.dx
    let kept := keptCount (g.ds / g.pc) r.block g.dx
    let results := decodeResults consumed g r
    results.bytesConsumed.toNat = consumed ∧ results.outLen.toNat = kept * g.pc ∧
    results.strideGroups.toNat = r.sg ∧ results.fill.toNat = r.fill ∧ results.block.toNat = r.block ∧
    results.keptCount.toNat = kept ∧ results.skippedCount.toNat + kept = g.ds / g.pc := by
  intro r kept results
  obtain ⟨hsg, hfill, hblock⟩ := hg.rowGeometry_lt
  have hkept : kept ≤ g.ds / g.pc := keptCount_le (Nat.le_add_right _ _)
  have hgroups : g.ds / g.pc < 2 ^ 31 := (Nat.div_le_self _ _).trans_lt (lt_of_s32_eq hg.dataSize)
  refine ⟨toNat_u32 hc, toNat_u32 hk, toNat_u32 (hsg.trans (by decide)),
    toNat_u32 (hfill.trans (by decide)), toNat_u32 hblock, toNat_u32 (by omega), ?_⟩
  rw [show results.skippedCount.toNat = g.ds / g.pc - kept from toNat_u32 (by omega)]
  omega

/-- What a payload decode commits to the result registers, and the checks it has passed (41_payload_decode.md R137,
43_composite.md R170). -/
theorem Commits.decodeResults_eq {i : Instr} {s : State} {c : Commit} {h : Header} {g : DecodeGeometry}
    (hc : Commits i s c) (hd : decodesHeader i s h) (hg : DecodeGeometryOk s.caps.rowStrideSlot h g) :
    c.results = decodeResults ((if i = .decode then 296 else 0) + g.ds) g (deriveGeometry g.stride g.pc g.dx) ∧
      (if i = .decode then 296 else 0) + g.ds ≤ s.avail ∧ keptBytes g ≤ s.caps.dstSize.toNat := by
  rcases hd with ⟨rfl, rfl⟩ | ⟨rfl, f, hf, rfl⟩
  · obtain ⟨g', raw, hg', ha, hk, -, rfl⟩ := hc
    obtain rfl := hg.unique hg'
    exact ⟨by simp, by simpa using ha, hk⟩
  · obtain ⟨f', g', raw, h296, hf', hg', ha, hk, -, rfl⟩ := hc
    obtain rfl : f = f' := Option.some.inj (hf.symm.trans hf')
    obtain rfl := hg.unique hg'
    exact ⟨rfl, by simp only [if_true]; omega, hk⟩

theorem avail_lt (s : State) : s.avail < 2 ^ 32 := by
  have := s.srcLen.isLt
  unfold State.avail; split <;> omega

/-- Settles O35: the consumed bytes were available and the kept bytes fit in DST, so neither count wraps. -/
theorem decodeResultsAreExact : Obligations.DecodeResultsAreExact := by
  intro i s t h g hexec herr hd hg
  rcases exec_cases hexec with ⟨c, hc, rfl⟩ | ⟨e, -, rfl⟩
  · obtain ⟨hres, ha, hk⟩ := hc.decodeResults_eq hd hg
    rw [State.completeSuccess_results, hres]
    exact hg.toNat_decodeResults (ha.trans_lt (avail_lt s)) (hk.trans_lt s.caps.dstSize.isLt)
  · cases herr

end Machine
end Sys2Proof
end

section
/-! SUPPORT. What a commit writes and consumes: the length of each command's output, its place in DST, and the bytes of
the window it has read (20_memory.md R62, R77, R78; 10_state.md R39). -/

namespace Sys2Proof
namespace Machine

/-! ### The length of a payload decode's output -/

/-- One more group is kept exactly when its place in its row is below `dx` (41_payload_decode.md R134, R135). -/
theorem keptCount_succ {n block dx : Nat} (hb : 0 < block) (hdx : dx ≤ block) :
    keptCount (n + 1) block dx = keptCount n block dx + if n % block < dx then 1 else 0 := by
  have hn := Nat.mod_add_div n block
  have hlt := Nat.mod_lt n hb
  by_cases hrow : n % block + 1 < block
  · obtain ⟨hq, hr⟩ : (n + 1) / block = n / block ∧ (n + 1) % block = n % block + 1 :=
      (Nat.div_mod_unique hb).mpr ⟨by omega, hrow⟩
    rw [keptCount, keptCount, hq, hr]
    split <;> omega
  · obtain ⟨hq, hr⟩ : (n + 1) / block = n / block + 1 ∧ (n + 1) % block = 0 :=
      (Nat.div_mod_unique hb).mpr ⟨by rw [Nat.mul_add]; omega, hb⟩
    rw [keptCount, keptCount, hq, hr, Nat.add_mul]
    split <;> omega

/-- `K` counts the groups that the keep/skip rule keeps. -/
theorem length_filter_kept {block dx : Nat} (n : Nat) (hb : 0 < block) (hdx : dx ≤ block) :
    ((List.range n).filter fun j => decide (j % block < dx)).length = keptCount n block dx := by
  induction n with
  | zero => simp [keptCount]
  | succ n ih =>
    rw [keptCount_succ hb hdx, ← ih, List.range_succ, List.filter_append, List.length_append]
    by_cases h : n % block < dx <;> simp [h]

theorem flatMap_ite_nil {α β : Type} (l : List α) (p : α → Prop) [DecidablePred p] (f : α → List β) :
    (l.flatMap fun a => if p a then f a else []) = (l.filter fun a => decide (p a)).flatMap f := by
  induction l with
  | nil => rfl
  | cons a l ih => by_cases h : p a <;> simp [h, ih]

/-- Destride is the slices of the kept groups. -/
theorem destride_eq_flatMap_filter (raw : List Byte) (pc dx block : Nat) :
    destride raw pc dx block =
      ((List.range (raw.length / pc)).filter fun j => decide (j % block < dx)).flatMap fun j =>
        slice raw (j * pc) pc :=
  flatMap_ite_nil _ _ _

/-- The slice of a whole group has a group's length. -/
theorem length_slice_group {raw : List Byte} {pc j : Nat} (hj : j < raw.length / pc) :
    (slice raw (j * pc) pc).length = pc := by
  refine length_slice_of_le ?_
  calc j * pc + pc = (j + 1) * pc := (Nat.succ_mul j pc).symm
    _ ≤ raw.length / pc * pc := Nat.mul_le_mul_right pc hj
    _ ≤ raw.length := Nat.div_mul_le_self _ _

theorem length_destride {dx block : Nat} (raw : List Byte) (pc : Nat) (hb : 0 < block) (hdx : dx ≤ block) :
    (destride raw pc dx block).length = keptCount (raw.length / pc) block dx * pc := by
  rw [destride_eq_flatMap_filter, length_flatMap_const _ _ pc, length_filter_kept _ hb hdx]
  intro j hj
  exact length_slice_group (List.mem_range.mp (List.mem_filter.mp hj).1)

/-- A row holds at least its kept groups, so the padded row of an admitted geometry is not empty (R133). -/
theorem DecodeGeometryOk.length_destride {slot : Fin 2} {h : Header} {g : DecodeGeometry} {raw : List Byte}
    (hg : DecodeGeometryOk slot h g) (hl : raw.length = g.ds) :
    (destride raw g.pc g.dx (deriveGeometry g.stride g.pc g.dx).block).length = keptBytes g := by
  have hdx : g.dx ≤ (deriveGeometry g.stride g.pc g.dx).block := Nat.le_add_right _ _
  rw [Machine.length_destride raw g.pc (hg.widthPos.trans_le hdx) hdx, hl, keptBytes]

/-! ### The length of a payload encode's output -/

/-- The slice of a pixel of a dense buffer has a pixel's length. -/
theorem length_slice_pixel {dense : List Byte} {pc dx dy x y : Nat} (hl : dense.length = dx * dy * pc) (hx : x < dx)
    (hy : y < dy) : (slice dense ((y * dx + x) * pc) pc).length = pc := by
  refine length_slice_of_le ?_
  have hpixel : y * dx + x + 1 ≤ dx * dy :=
    calc y * dx + x + 1 ≤ y * dx + dx := by omega
      _ = (y + 1) * dx := (Nat.succ_mul y dx).symm
      _ ≤ dy * dx := Nat.mul_le_mul_right dx hy
      _ = dx * dy := Nat.mul_comm dy dx
  calc (y * dx + x) * pc + pc = (y * dx + x + 1) * pc := (Nat.succ_mul _ pc).symm
    _ ≤ dx * dy * pc := Nat.mul_le_mul_right pc hpixel
    _ = dense.length := hl.symm

theorem length_restride {dense : List Byte} {pc dx dy : Nat} (hl : dense.length = dx * dy * pc) :
    (restride dense pc dx dy).length = dx * dy * pc := by
  rw [restride, length_flatMap_const _ _ (dx * pc), List.length_range]
  · ring
  intro y hy
  rw [length_flatMap_const _ _ pc, List.length_range]
  exact fun x hx => length_slice_pixel hl (List.mem_range.mp hx) (List.mem_range.mp hy)

theorem EncodeGeometryOk.length_restride {h : Header} {g : EncodeGeometry} {dense : List Byte}
    (hg : EncodeGeometryOk h g) (hl : dense.length = g.n) : (restride dense g.pc g.dx g.dy).length = g.n := by
  rw [Machine.length_restride (hl.trans hg.size), hg.size]

/-! ### OUT_LEN and the bytes consumed -/

/-- A commit writes OUT_LEN bytes, and they fit DST (20_memory.md R62, 10_state.md R39). -/
theorem Commits.outLen {i : Instr} {s : State} {c : Commit} (h : Commits i s c) :
    c.results.outLen.toNat = c.out.length ∧ c.out.length ≤ s.caps.dstSize.toNat := by
  have hdst := s.caps.dstSize.isLt
  cases i with
  | decodeHeader =>
    obtain ⟨f, -, -, rfl⟩ := h
    exact ⟨rfl, Nat.zero_le _⟩
  | destride =>
    obtain ⟨g, raw, hg, -, hk, hr, rfl⟩ := h
    rw [hg.length_destride (Memory.length_readBytes hr)]
    exact ⟨toNat_u32 (hk.trans_lt hdst), hk⟩
  | decode =>
    obtain ⟨f, g, raw, -, -, hg, -, hk, hr, rfl⟩ := h
    rw [hg.length_destride (Memory.length_readBytes hr)]
    exact ⟨toNat_u32 (hk.trans_lt hdst), hk⟩
  | encodeHeader =>
    obtain ⟨g, -, hd, rfl⟩ := h
    rw [length_serializeHeader]
    exact ⟨rfl, hd⟩
  | restride =>
    obtain ⟨g, dense, hg, -, hd, hr, rfl⟩ := h
    rw [hg.length_restride (Memory.length_readBytes hr)]
    exact ⟨toNat_u32 (hd.trans_lt hdst), hd⟩
  | encode =>
    obtain ⟨g, dense, hg, -, hd, hr, rfl⟩ := h
    rw [List.length_append, length_serializeHeader, hg.length_restride (Memory.length_readBytes hr)]
    exact ⟨toNat_u32 (hd.trans_lt hdst), hd⟩

/-- The first `n` bytes of the window are available and written (20_memory.md R77, R78). -/
def State.WindowWritten (s : State) (n : Nat) : Prop :=
  n ≤ s.avail ∧ ∀ k, k < n → (s.src.read (s.srcOff.toNat + k)).isSome = true

/-- A read from SRC_OFF that finds its bytes. -/
theorem windowWritten_of_readBytes {s : State} {n : Nat} {bs : List Byte} (hn : n ≤ s.avail)
    (h : s.src.readBytes s.srcOff.toNat n = some bs) : s.WindowWritten n :=
  ⟨hn, (Memory.isSome_readBytes_iff ..).mp (Option.isSome_of_eq_some h)⟩

/-- A read further on extends the written part of the window. -/
theorem State.WindowWritten.append {s : State} {m n : Nat} {bs : List Byte} (hm : s.WindowWritten m)
    (hn : m + n ≤ s.avail) (h : s.src.readBytes (s.srcOff.toNat + m) n = some bs) : s.WindowWritten (m + n) := by
  refine ⟨hn, fun k hk => ?_⟩
  by_cases hkm : k < m
  · exact hm.2 k hkm
  · have hread := (Memory.isSome_readBytes_iff ..).mp (Option.isSome_of_eq_some h) (k - m) (by omega)
    rwa [show s.srcOff.toNat + m + (k - m) = s.srcOff.toNat + k by omega] at hread

/-- A count of available bytes does not wrap in BYTES_CONSUMED (10_state.md R39). -/
theorem State.WindowWritten.toNat_u32 {s : State} {n : Nat} (h : s.WindowWritten n) :
    s.WindowWritten (u32 n).toNat := by
  rwa [Machine.toNat_u32 (h.1.trans_lt (avail_lt s))]

/-- A commit has consumed only available, written bytes (20_memory.md R77, R78; 30_encoding.md R86). -/
theorem Commits.windowWritten {i : Instr} {s : State} {c : Commit} (h : Commits i s c) :
    s.WindowWritten c.results.bytesConsumed.toNat := by
  cases i with
  | decodeHeader =>
    obtain ⟨f, ha, hf, rfl⟩ := h
    exact windowWritten_of_readBytes ha hf
  | destride =>
    obtain ⟨g, raw, -, ha, -, hr, rfl⟩ := h
    exact (windowWritten_of_readBytes ha hr).toNat_u32
  | decode =>
    obtain ⟨f, g, raw, h296, hf, -, ha, -, hr, rfl⟩ := h
    exact ((windowWritten_of_readBytes h296 hf).append (by omega) hr).toNat_u32
  | encodeHeader =>
    obtain ⟨g, -, -, rfl⟩ := h
    exact ⟨Nat.zero_le _, fun k hk => absurd hk (Nat.not_lt_zero k)⟩
  | restride | encode =>
    obtain ⟨g, dense, -, ha, -, hr, rfl⟩ := h
    exact (windowWritten_of_readBytes ha hr).toNat_u32

end Machine
end Sys2Proof
end

section
/-! PROOF. Every step keeps the invariant: one lemma for each operation of the model, then the three agents of a step
(20_memory.md R61, R62; 10_state.md R23 to R27, R35 to R37; 60_exceptions.md R200, R209, R210). -/

namespace Sys2Proof
namespace Machine

/-! ### Operations that touch nothing the invariant reads, or WR_IGNORED and HDR_VALID alone -/

theorem State.Inv.withInputs {s : State} (h : s.Inv) (l : List Input) : (s.withInputs l).Inv := { h with }

theorem State.Inv.logRead {s : State} (h : s.Inv) (r : HostRead) : (s.logRead r).Inv := { h with }

theorem State.Inv.withDraws {s : State} (h : s.Inv) (n : Nat) : State.Inv { s with draws := n } := { h with }

theorem State.Inv.dropWrite {s : State} (h : s.Inv) : s.dropWrite.Inv := { h with }

/-! ### Writes of the host -/

theorem State.Inv.accept {s : State} (h : s.Inv) (w : Word) : (s.accept w).Inv :=
  { h with
    pendingIsCmd := fun _ => rfl
    busyClears := fun _ => ⟨rfl, rfl⟩
    errIsDone := fun he => absurd he Bool.false_ne_true
    errHasCode := iff_of_false Bool.false_ne_true (not_not_intro rfl)
    codeAssigned := Nat.zero_le _
    errResultsZero := fun he => absurd he Bool.false_ne_true }

/-- The window registers store clamped values (10_state.md R36, R37). -/
theorem clampToSrc_le (s : State) (v : Word) : (s.clampToSrc v).toNat ≤ s.caps.srcSize.toNat := by
  rw [toNat_clampToSrc]
  exact Nat.min_le_right _ _

theorem State.Inv.writeReg {s : State} (h : s.Inv) (r : Reg) (v : Word) : (s.writeReg r v).Inv := by
  cases r with
  | cmd => exact h.accept v
  | srcOff => exact { h with srcOffClamped := clampToSrc_le s v }
  | srcLen => exact { h with srcLenClamped := clampToSrc_le s v }
  | hrf k => exact { h with }
  | _ => exact h

theorem State.Inv.writeSrc {s : State} {a : Nat} (h : s.Inv) (ha : a < s.caps.srcSize.toNat) (v : Byte) :
    State.Inv { s with src := s.src.write a v } :=
  { h with
    srcCanonical := Memory.wf_write h.srcCanonical a v
    srcInside := fun c hc => by
      rcases Memory.mem_write hc with rfl | hc
      · exact ha
      · exact h.srcInside c hc }

theorem HostEffect.inv {s t : State} {x : Transaction} (h : HostEffect s x t) (hs : s.Inv) : t.Inv := by
  cases h with
  | dropped => exact hs.dropWrite
  | written _ v r => exact hs.writeReg r v
  | regRead | srcRead | dstRead => exact hs.logRead _
  | srcWritten a v ha => exact hs.writeSrc ha v
  | dstReadBusy => exact (hs.logRead _).withDraws _

/-! ### Completions and reset -/

theorem code_le_six (e : ErrorKind) : e.code.toNat ≤ 6 := by cases e <;> decide

/-- An error completion writes the code of an error and clears the results (60_exceptions.md R210). -/
theorem State.Inv.completeError {s : State} (h : s.Inv) (e : ErrorKind) : (s.completeError e).Inv :=
  { h with
    pendingIsCmd := fun hb => absurd hb Bool.false_ne_true
    busyClears := fun hb => absurd hb Bool.false_ne_true
    errIsDone := fun _ => rfl
    errHasCode := iff_of_true rfl (code_ne_zero e)
    codeAssigned := code_le_six e
    errResultsZero := fun _ => rfl
    outLenFits := Nat.zero_le _ }

/-- A commit's output lies below DST_SIZE, and OUT_LEN is its length (20_memory.md R62). -/
theorem State.Inv.completeSuccess {s : State} {i : Instr} {c : Commit} (h : s.Inv) (hc : Commits i s c) :
    (s.completeSuccess c).Inv := by
  obtain ⟨hlen, hfits⟩ := hc.outLen
  exact
    { h with
      dstCanonical := Memory.wf_writeBytes h.dstCanonical 0 c.out
      dstInside := fun d hd => by
        rcases Memory.mem_writeBytes hd with ⟨-, hd⟩ | hd
        · exact (hd.trans_le (Nat.zero_add _).le).trans_le hfits
        · exact h.dstInside d hd
      pendingIsCmd := fun hb => absurd hb Bool.false_ne_true
      busyClears := fun hb => absurd hb Bool.false_ne_true
      errIsDone := fun _ => rfl
      errHasCode := iff_of_false Bool.false_ne_true (not_not_intro rfl)
      codeAssigned := Nat.zero_le _
      errResultsZero := fun he => absurd he Bool.false_ne_true
      outLenFits := hlen.trans_le hfits }

theorem engineTurn_inv {s t : State} (hs : s.Inv) (h : engineTurn s = .next t) : t.Inv := by
  rcases engineTurn_effect h with ⟨-, rfl⟩ | ⟨-, i, c, hc, rfl⟩ | ⟨-, e, rfl⟩
  · exact hs
  · exact hs.completeSuccess hc
  · exact hs.completeError e

/-- The reset input leaves the reset values with the machine's own sizes (70_reset_and_hazards.md R230). -/
theorem resetInput_inv (s : State) : s.resetInput.Inv :=
  { (resetSatisfiesTheInvariant : State.reset.Inv) with
    srcInside := fun _ h => (List.not_mem_nil h).elim
    dstInside := fun _ h => (List.not_mem_nil h).elim
    srcOffClamped := Nat.zero_le _
    srcLenClamped := Nat.zero_le _
    outLenFits := Nat.zero_le _ }

/-- Settles O56: each of the three agents keeps the invariant. -/
theorem stepKeepsTheInvariant : Obligations.StepKeepsTheInvariant := by
  intro s t hs h
  rcases step_agent_cases h with ⟨l, h⟩ | ⟨x, rest, -, h⟩ | ⟨rest, -, rfl⟩
  · exact engineTurn_inv (hs.withInputs l) h
  · exact h.inv (hs.withInputs rest)
  · exact resetInput_inv _

end Machine
end Sys2Proof
end

section
/-! PROOF. The bytes of SRC and DST that commands read and write: where the output lands, what a commit has consumed, the
fault at an unwritten byte, and who changes a memory (20_memory.md R60 to R63, R77, R78). -/

namespace Sys2Proof
namespace Machine

/-! ### Where the output lands -/

/-- Settles O23: it is the law of a written sequence, from address 0. -/
theorem outputLandsFromAddressZero : Obligations.OutputLandsFromAddressZero := by
  intro m out a
  rw [Memory.read_writeBytes, Nat.zero_add, Nat.sub_zero]
  simp only [Nat.zero_le, true_and]

/-! ### What a commit has consumed -/

/-- Settles O24. -/
theorem consumedBytesLieInTheWindow : Obligations.ConsumedBytesLieInTheWindow := by
  intro i s t hexec herr
  rcases exec_cases hexec with ⟨c, hc, rfl⟩ | ⟨e, -, rfl⟩
  · exact hc.windowWritten
  · cases herr

/-! ### The fault at an unwritten byte -/

/-- Reading a range with an unwritten byte is the model's fault (20_memory.md R77; log 8). -/
theorem memRead_of_unwritten {s : State} {a n k : Nat} (hk : k < n) (h : s.src.read (a + k) = none) :
    s.memRead a n = .error (.fault .unwrittenSrcByte) := by
  refine (memRead_eq_error_iff ..).mpr ⟨Option.not_isSome_iff_eq_none.mp fun hall => ?_, rfl⟩
  have hread := (Memory.isSome_readBytes_iff ..).mp hall k hk
  simp [h] at hread

/-- DECODE_HEADER and DECODE read the header bytes right after the check of their number (40_header_codec.md
R113, 43_composite.md R170). -/
theorem exec_of_unwritten_header {s : State} {k : Nat} (ha : 296 ≤ s.avail) (hk : k < 296)
    (h : s.src.read (s.srcOff.toNat + k) = none) :
    exec .decodeHeader s = .fault .unwrittenSrcByte ∧ exec .decode s = .fault .unwrittenSrcByte := by
  have hread : s.memRead s.srcOff.toNat hdrLen = .error (.fault .unwrittenSrcByte) := memRead_of_unwritten hk h
  have havail : ¬ s.avail < hdrLen := Nat.not_lt.mpr ha
  constructor
  · simp only [exec, execDecodeHeader, raiseIf_neg havail, hread, Cmd.ok_bind, Cmd.error_bind, finish_fault]
  · simp only [exec, execDecode, raiseIf_neg havail, hread, Cmd.ok_bind, Cmd.error_bind, finish_fault]

/-- Kept bytes that fit DST pass the check of DESTRIDE and DECODE, which spells them out (41_payload_decode.md R137). -/
theorem not_overflow_of_keptBytes_le {g : DecodeGeometry} {size : Nat} (h : keptBytes g ≤ size) :
    ¬ keptCount (g.ds / g.pc) (deriveGeometry g.stride g.pc g.dx).block g.dx * g.pc > size :=
  Nat.not_lt.mpr h

/-- DECODE reads its payload after every check has passed (43_composite.md R170). -/
theorem exec_decode_of_unwritten_payload {s : State} {f : List Byte} {g : DecodeGeometry} {k : Nat}
    (hf : s.src.readBytes s.srcOff.toNat 296 = some f) (hg : DecodeGeometryOk s.caps.rowStrideSlot (parseHeader f) g)
    (ha : 296 + g.ds ≤ s.avail) (hd : keptBytes g ≤ s.caps.dstSize.toNat) (hk : k < g.ds)
    (h : s.src.read (s.srcOff.toNat + 296 + k) = none) : exec .decode s = .fault .unwrittenSrcByte := by
  have hheader : s.memRead s.srcOff.toNat hdrLen = .ok f := (memRead_eq_ok_iff ..).mpr hf
  have hread : s.memRead (s.srcOff.toNat + hdrLen) g.ds = .error (.fault .unwrittenSrcByte) :=
    memRead_of_unwritten hk h
  have h296 : ¬ s.avail < hdrLen := by rw [hdrLen_eq]; omega
  have hpayload : ¬ s.avail - hdrLen < g.ds := by rw [hdrLen_eq]; omega
  simp only [exec, execDecode, raiseIf_neg h296, hheader, (validateDecodeGeometry_eq_ok_iff ..).mpr hg,
    raiseIf_neg hpayload, raiseIf_neg (not_overflow_of_keptBytes_le hd), hread, Cmd.ok_bind, Cmd.error_bind,
    finish_fault]

/-- DESTRIDE reads its payload after every check has passed (41_payload_decode.md R137). -/
theorem exec_destride_of_unwritten {s : State} {g : DecodeGeometry} {k : Nat}
    (hg : DecodeGeometryOk s.caps.rowStrideSlot s.hrf g) (ha : g.ds ≤ s.avail)
    (hd : keptBytes g ≤ s.caps.dstSize.toNat) (hk : k < g.ds) (h : s.src.read (s.srcOff.toNat + k) = none) :
    exec .destride s = .fault .unwrittenSrcByte := by
  simp only [exec, execDestride, (validateDecodeGeometry_eq_ok_iff ..).mpr hg, raiseIf_neg (Nat.not_lt.mpr ha),
    raiseIf_neg (not_overflow_of_keptBytes_le hd), memRead_of_unwritten hk h, Cmd.ok_bind, Cmd.error_bind, finish_fault]

/-- RESTRIDE and ENCODE read the dense bytes after every check has passed, each for the room its own output needs
(42_payload_encode.md R151, 43_composite.md R171). -/
theorem exec_encode_of_unwritten {s : State} {g : EncodeGeometry} {k : Nat} (hg : EncodeGeometryOk s.hrf g)
    (ha : g.n ≤ s.avail) (hk : k < g.n) (h : s.src.read (s.srcOff.toNat + k) = none) :
    (g.n ≤ s.caps.dstSize.toNat → exec .restride s = .fault .unwrittenSrcByte) ∧
    (296 + g.n ≤ s.caps.dstSize.toNat → exec .encode s = .fault .unwrittenSrcByte) := by
  have hgeometry : encodeGeometry s.hrf = .ok g := (encodeGeometry_eq_ok_iff ..).mpr hg
  have havail : ¬ s.avail < g.n := Nat.not_lt.mpr ha
  constructor
  · intro hd
    have hfits : ¬ g.n > s.caps.dstSize.toNat := Nat.not_lt.mpr hd
    simp only [exec, execRestride, hgeometry, raiseIf_neg havail, raiseIf_neg hfits, memRead_of_unwritten hk h,
      Cmd.ok_bind, Cmd.error_bind, finish_fault]
  · intro hd
    have hfits : ¬ hdrLen + g.n > s.caps.dstSize.toNat := Nat.not_lt.mpr hd
    simp only [exec, execEncode, hgeometry, raiseIf_neg havail, raiseIf_neg hfits, memRead_of_unwritten hk h,
      Cmd.ok_bind, Cmd.error_bind, finish_fault]

/-- Settles O19. -/
theorem unwrittenSourceByteFaults : Obligations.UnwrittenSourceByteFaults :=
  ⟨fun _ _ ha hk h => exec_of_unwritten_header ha hk h,
    fun _ _ _ _ hf hg ha hd hk h => exec_decode_of_unwritten_payload hf hg ha hd hk h,
    fun _ _ _ hg ha hd hk h => exec_destride_of_unwritten hg ha hd hk h,
    fun _ _ _ hg ha hk h => exec_encode_of_unwritten hg ha hk h⟩

/-! ### Who changes a memory -/

theorem writeReg_src (s : State) (r : Reg) (v : Word) : (s.writeReg r v).src = s.src := by cases r <;> rfl

theorem writeReg_dst (s : State) (r : Reg) (v : Word) : (s.writeReg r v).dst = s.dst := by cases r <;> rfl

/-- Of the host's transactions only a SRC write changes SRC (20_memory.md R60). -/
theorem HostEffect.src_cases {s t : State} {x : Transaction} (h : HostEffect s x t) :
    t.src = s.src ∨ ∃ a v, x = .srcWrite a v := by
  cases h with
  | srcWritten a v => exact .inr ⟨a, v, rfl⟩
  | written _ v r => exact .inl (writeReg_src s r v)
  | dropped | regRead | srcRead | dstRead | dstReadBusy => exact .inl rfl

/-- The host never changes DST (20_memory.md R63). -/
theorem HostEffect.dst_eq {s t : State} {x : Transaction} (h : HostEffect s x t) : t.dst = s.dst := by
  cases h with
  | written _ v r => exact writeReg_dst s r v
  | dropped | regRead | srcWritten | srcRead | dstRead | dstReadBusy => rfl

/-- The engine never changes SRC (20_memory.md R60). -/
theorem engineTurn_src {s t : State} (h : engineTurn s = .next t) : t.src = s.src := by
  rcases engineTurn_effect h with ⟨-, rfl⟩ | ⟨-, _, c, -, rfl⟩ | ⟨-, e, rfl⟩
  · rfl
  · exact State.completeSuccess_src s c
  · exact State.completeError_src s e

/-- The engine changes DST only at a success completion (20_memory.md R63, 60_exceptions.md R210). -/
theorem engineTurn_dst_cases {s t : State} (h : engineTurn s = .next t) :
    t.dst = s.dst ∨ (s.status.busy = true ∧ t.status.busy = false ∧ t.status.err = false) := by
  rcases engineTurn_effect h with ⟨-, rfl⟩ | ⟨hb, _, c, -, rfl⟩ | ⟨-, e, rfl⟩
  · exact .inl rfl
  · exact .inr ⟨hb, rfl, rfl⟩
  · exact .inl (State.completeError_dst s e)

/-- Settles O54. -/
theorem memoriesHaveOneWriterEach : Obligations.MemoriesHaveOneWriterEach := by
  intro s t h
  rcases step_agent_cases h with ⟨l, h⟩ | ⟨x, rest, hi, h⟩ | ⟨rest, hi, -⟩
  · refine ⟨fun hsrc => absurd (engineTurn_src h) hsrc, fun hdst => .inl ?_⟩
    exact (engineTurn_dst_cases h).resolve_left hdst
  · refine ⟨fun hsrc => .inl ?_, fun hdst => absurd h.dst_eq hdst⟩
    obtain ⟨a, v, rfl⟩ := h.src_cases.resolve_left hsrc
    exact ⟨a, v, rest, hi⟩
  · exact ⟨fun _ => .inr ⟨rest, hi⟩, fun _ => .inr ⟨rest, hi⟩⟩

end Machine
end Sys2Proof
end

section
/-! PROOF. The host's accesses to the register window, SRC and DST: which are answered, which are refused, and what each
does (20_memory.md R60 to R74, 60_exceptions.md R214, 70_reset_and_hazards.md R236 to R238). -/

namespace Sys2Proof
namespace Machine

/-! ### Which register accesses have a meaning -/

/-- An access reaches a register exactly when it is an aligned word access inside the window (20_memory.md R64,
R68). -/
theorem exists_regAccess_iff {width : AccessWidth} {offset : Nat} :
    (∃ r, regAccess width offset = .ok r) ↔ width = .word ∧ offset % 4 = 0 ∧ offset < 0x228 := by
  constructor
  · rintro ⟨r, hr⟩
    obtain ⟨hw, h4, hat⟩ := regAccess_ok hr
    refine ⟨hw, h4, Nat.lt_of_not_le fun hout => ?_⟩
    simp [regAt_outside hout] at hat
  · rintro ⟨rfl, h4, hl⟩
    exact (exists_regAt hl h4).imp fun r hr => regAccess_of_regAt h4 hr

theorem hostTurn_regWrite_of_ok {width : AccessWidth} {offset : Nat} {r : Reg} (s : State) (v : Word)
    (hr : regAccess width offset = .ok r) :
    hostTurn (.regWrite width offset v) s = .next (if s.status.busy then s.dropWrite else s.writeReg r v) := by
  simp only [hostTurn, hr]

/-- An access that reaches no register is refused, whatever the state. -/
theorem hostTurn_reg_of_error {width : AccessWidth} {offset : Nat} {e : Refusal} (s : State) (v : Word)
    (he : regAccess width offset = .error e) :
    hostTurn (.regWrite width offset v) s = .refused e ∧ hostTurn (.regRead width offset) s = .refused e := by
  simp only [hostTurn, he, and_self]

/-- Settles O43. -/
theorem onlyWordAccessesHaveAMeaning : Obligations.OnlyWordAccessesHaveAMeaning := by
  intro s width offset v
  rw [← exists_regAccess_iff]
  cases ha : regAccess width offset with
  | ok r =>
    refine ⟨fun _ => ⟨⟨_, hostTurn_regWrite_of_ok s v ha⟩, ?_⟩, fun hn => absurd ⟨r, rfl⟩ hn⟩
    obtain rfl := regAccess_ok_width ha
    exact ⟨_, hostTurn_regRead s ha⟩
  | error e =>
    obtain ⟨hwrite, hread⟩ := hostTurn_reg_of_error s v ha
    exact ⟨fun ⟨_, hr⟩ => (nomatch hr), fun _ => ⟨⟨e, hwrite⟩, ⟨e, hread⟩⟩⟩

/-! ### Register writes without effect and register reads -/

/-- Each register is reached at its offset (20_memory.md R64). -/
theorem regAccess_offset (r : Reg) : regAccess .word r.offset = .ok r := by
  cases r with
  | hrf k => exact regAccess_hrf k
  | _ => rfl

/-- Outside the reserved range, only a register's own offset reaches it (20_memory.md R64). -/
theorem offset_eq_of_regAccess {width : AccessWidth} {offset : Nat} {r : Reg} (h : regAccess width offset = .ok r)
    (hr : r ≠ .reserved) : offset = r.offset := by
  obtain ⟨-, h4, hat⟩ := regAccess_ok h
  unfold regAt at hat
  split at hat
  · next hh =>
    obtain rfl := Option.some.inj hat
    simp only [Reg.offset]
    omega
  · split at hat
    · exact absurd (Option.some.inj hat).symm hr
    · split at hat <;> cases hat <;> rfl

/-- The registers a host write can change (20_memory.md R64). -/
def Reg.Writable (r : Reg) : Prop := r = .cmd ∨ r = .srcOff ∨ r = .srcLen ∨ ∃ k, r = .hrf k

/-- A write to a read-only register or a reserved offset is ignored (20_memory.md R71). -/
theorem writeReg_of_not_writable {r : Reg} (s : State) (v : Word) (h : ¬ r.Writable) : s.writeReg r v = s := by
  cases r with
  | cmd => exact absurd (.inl rfl) h
  | srcOff => exact absurd (.inr (.inl rfl)) h
  | srcLen => exact absurd (.inr (.inr (.inl rfl))) h
  | hrf k => exact absurd (.inr (.inr (.inr ⟨k, rfl⟩))) h
  | _ => rfl

/-- The writable registers lie at 0x000, 0x00C, 0x010 and from 0x100 (20_memory.md R64). -/
theorem offset_of_writable {width : AccessWidth} {offset : Nat} {r : Reg} (h : regAccess width offset = .ok r)
    (hw : r.Writable) : offset = 0x000 ∨ offset = 0x00C ∨ offset = 0x010 ∨ 0x100 ≤ offset := by
  rcases hw with rfl | rfl | rfl | ⟨k, rfl⟩
  · exact .inl (offset_of_cmd h)
  · exact .inr (.inl (offset_eq_of_regAccess h nofun))
  · exact .inr (.inr (.inl (offset_eq_of_regAccess h nofun)))
  · exact .inr (.inr (.inr (by rw [offset_of_hrf h]; omega)))

/-- Settles O40. -/
theorem readOnlyWritesAreIgnored : Obligations.ReadOnlyWritesAreIgnored := by
  intro s offset v hs h4 hoff
  obtain ⟨r, hr⟩ := exists_regAccess_iff.mpr ⟨rfl, h4, show offset < 0x228 by omega⟩
  have hro : ¬ r.Writable := fun hw => by
    have := offset_of_writable hr hw
    omega
  rw [hostTurn_regWrite_idle v hs hr, writeReg_of_not_writable s v hro]

/-- A read of a register at its offset. -/
theorem hostTurn_regRead_offset (s : State) (r : Reg) :
    hostTurn (.regRead .word r.offset) s = .next (s.logRead (.reg r.offset (s.readReg r))) :=
  hostTurn_regRead s (regAccess_offset r)

/-- Settles O41. -/
theorem registerReadsReturnTheRegister : Obligations.RegisterReadsReturnTheRegister := by
  intro s returns
  have hread : ∀ r : Reg, returns r.offset (s.readReg r) := hostTurn_regRead_offset s
  exact ⟨hread .cmd, hread .errcode, hread .srcOff, hread .srcLen, hread .bytesConsumed, hread .outLen,
    hread .strideGroups, hread .fill, hread .block, hread .keptCount, hread .skippedCount, hread .srcSizeReg,
    hread .dstSizeReg, hread .config, fun k => hread (.hrf k),
    fun offset h4 hlo hhi => hostTurn_regRead s (regAccess_of_regAt h4 (regAt_reserved hlo hhi))⟩

/-! ### Accesses to SRC and DST -/

/-- SRC accesses at or beyond SRC_SIZE are refused (60_exceptions.md R214). -/
theorem hostTurn_src_outside {s : State} {a : Nat} (v : Byte) (ha : s.caps.srcSize.toNat ≤ a) :
    hostTurn (.srcWrite a v) s = .refused .srcAddressOutside ∧
    hostTurn (.srcRead a) s = .refused .srcAddressOutside := by
  simp only [hostTurn, if_pos ha, and_self]

/-- A SRC write while BUSY = 1 is refused at every address (70_reset_and_hazards.md R236). -/
theorem exists_refused_srcWrite_of_busy {s : State} (a : Nat) (v : Byte) (hb : s.status.busy = true) :
    ∃ r, hostTurn (.srcWrite a v) s = .refused r := by
  by_cases ha : s.caps.srcSize.toNat ≤ a
  · exact ⟨_, (hostTurn_src_outside v ha).1⟩
  · exact ⟨.srcWriteWhileBusy, by simp only [hostTurn, if_neg ha, if_pos hb]⟩

/-- DST reads at or beyond DST_SIZE are refused (60_exceptions.md R214). -/
theorem hostTurn_dstRead_outside {s : State} {a : Nat} (ha : s.caps.dstSize.toNat ≤ a) :
    hostTurn (.dstRead a) s = .refused .dstAddressOutside := by
  simp only [hostTurn, if_pos ha]

theorem srcReadBack_of_read {s : State} {a : Nat} {w : Byte} (h : s.src.read a = some w) : s.srcReadBack a = w := by
  rw [State.srcReadBack, h, Option.getD_some]

theorem dstReadBack_of_read {s : State} {a : Nat} {w : Byte} (h : s.dst.read a = some w) : s.dstReadBack a = w := by
  rw [State.dstReadBack, h, Option.getD_some]

/-- Settles O44. -/
theorem sourceWritesLandOrAreRefused : Obligations.SourceWritesLandOrAreRefused := by
  intro s a v
  refine ⟨fun hb ha => ⟨s.src.write a v, ?lands, ?here, fun b hne => ?elsewhere⟩,
    exists_refused_srcWrite_of_busy a v, fun ha => ⟨s.srcReadBack a, fun w => srcReadBack_of_read, ?readBack⟩,
    fun ha => ⟨⟨_, (hostTurn_src_outside v ha).1⟩, ⟨_, (hostTurn_src_outside v ha).2⟩⟩⟩
  case lands => exact (hostTurn_eq_next_iff ..).mpr (.srcWritten a v ha hb)
  case here => rw [Memory.read_write, if_pos rfl]
  case elsewhere => rw [Memory.read_write, if_neg hne]
  case readBack => exact (hostTurn_eq_next_iff ..).mpr (.srcRead a ha)

/-- Settles O45: the record of reads has no part in the value read. -/
theorem destinationReads : Obligations.DestinationReads := by
  intro s a
  refine ⟨fun hb ha => ⟨s.dstReadBack a, fun w => dstReadBack_of_read, fun log => ?idle⟩,
    fun hb ha => ⟨Config.dstWhileBusy s.draws, s.draws + 1, ?busy⟩, fun ha => ⟨_, hostTurn_dstRead_outside ha⟩⟩
  case idle => exact (hostTurn_eq_next_iff ..).mpr (.dstRead (s := { s with hostReads := log }) a ha hb)
  case busy => exact (hostTurn_eq_next_iff ..).mpr (.dstReadBusy a ha hb)

end Machine
end Sys2Proof
end

section
/-! PROOF. Command words and the end of `WAIT`: a word is a command exactly when the encoder writes it, and the polls of
STATUS end with the read after the engine's turn (30_encoding.md R83, R84, R93; 70_reset_and_hazards.md R250). -/

namespace Sys2Proof
namespace Machine

/-! ### Command words -/

theorem decode_encode (i : Instr) : decode (encode i) = .ok i := by cases i <;> rfl

/-- The decoder selects a command on the encoder's word for it and on no other (30_encoding.md R84). -/
theorem decode_eq_ok_iff {w : Word} {i : Instr} : decode w = .ok i ↔ w = encode i :=
  ⟨eq_encode_of_decode, fun h => h ▸ decode_encode i⟩

/-- Settles O1: each command has one row, which holds the encoder's word for it. -/
theorem oneWordSelectsEachCommand : Obligations.OneWordSelectsEachCommand := by
  intro w i
  rw [decode_eq_ok_iff]
  cases i <;> simp [encode]

/-- A table word of the full width is the register value itself (30_encoding.md R94). -/
theorem decodeTableWord_toNat (w : Word) : decodeTableWord 32 w.toNat = (decode w).toOption := by
  rw [decodeTableWord, Nat.mod_eq_of_lt w.isLt, BitVec.ofNat_toNat, BitVec.setWidth_eq]
  cases decode w <;> rfl

theorem decodeTableWord_encode (i : Instr) : decodeTableWord 32 (encode i).toNat = some i := by
  rw [decodeTableWord_toNat, decode_encode, Except.toOption]

/-- Settles O2. -/
theorem sixWordsDecodeAndEncode : Obligations.SixWordsDecodeAndEncode :=
  ⟨⟨decodeTableWord_encode .decodeHeader, decodeTableWord_encode .destride, decodeTableWord_encode .decode,
    decodeTableWord_encode .encodeHeader, decodeTableWord_encode .restride, decodeTableWord_encode .encode⟩,
    fun i _ => decode_encode i⟩

/-! ### Several steps -/

/-- The first of several steps. -/
theorem stepMany_succ_of_next {s t : State} (k : Nat) (h : step s = .next t) : stepMany (k + 1) s = stepMany k t := by
  rw [stepMany, h]

/-! ### The engine's turn inside `WAIT` -/

/-- Bit 0 of STATUS is BUSY (10_state.md R24). -/
theorem getLsbD_zero_statusWord (f : Status) : f.word.getLsbD 0 = f.busy := by
  rw [getLsbD_statusWord]; simp

/-- With every byte of the window written, the engine's turn goes on. -/
theorem exists_engineTurn_next {s : State} (hw : ¬ s.WindowHole) : ∃ t, engineTurn s = .next t := by
  cases h : engineTurn s with
  | next t => exact ⟨t, rfl⟩
  | fault r => exact absurd (windowHole_of_engineTurn_fault h) hw
  | refused r => exact absurd h (engineTurn_ne_refused s r)

/-- The engine's turn leaves what is to come at the boundary and what the host has read. -/
theorem engineTurn_boundary {s t : State} (h : engineTurn s = .next t) :
    t.inputs = s.inputs ∧ t.hostReads = s.hostReads := by
  rcases engineTurn_effect h with ⟨-, rfl⟩ | ⟨-, _, c, -, rfl⟩ | ⟨-, e, rfl⟩
  · exact ⟨rfl, rfl⟩
  · exact ⟨State.completeSuccess_inputs s c, State.completeSuccess_hostReads s c⟩
  · exact ⟨State.completeError_inputs s e, State.completeError_hostReads s e⟩

/-! ### The polls of `WAIT` -/

/-- `s` after `polls` reads of STATUS, with the inputs `l` left. -/
def State.polled (s : State) (polls : Nat) (l : List Input) : State :=
  { s with inputs := l, hostReads := List.replicate polls (.reg 0x004 s.status.word) ++ s.hostReads }

theorem step_of_statusRead {s : State} {l : List Input} (h : s.inputs = hostR .status :: l) :
    step s = .next (s.polled 1 l) :=
  (step_of_host h).trans (hostTurn_regRead_offset (s.withInputs l) .status)

/-- One poll more, taken first. -/
theorem polled_polled_one (s : State) (polls : Nat) (l l' : List Input) :
    (s.polled 1 l').polled polls l = s.polled (polls + 1) l := by
  simp [State.polled, List.replicate_succ']

/-- The polls before the engine's turn add their reads to the record and do nothing else (30_encoding.md R93). -/
theorem stepMany_polls {polls : Nat} {s : State} {l : List Input} (k : Nat)
    (h : s.inputs = List.replicate polls (hostR .status) ++ l) :
    stepMany (polls + k) s = stepMany k (s.polled polls l) := by
  induction polls generalizing s with
  | zero =>
    obtain rfl : s.inputs = l := h
    rw [Nat.zero_add]
    rfl
  | succ polls ih =>
    calc stepMany (polls + 1 + k) s
      _ = stepMany (polls + k + 1) s := by rw [Nat.add_right_comm]
      _ = stepMany (polls + k) (s.polled 1 _) := stepMany_succ_of_next _ (step_of_statusRead h)
      _ = stepMany k ((s.polled 1 _).polled polls l) := ih rfl
      _ = stepMany k (s.polled (polls + 1) l) := by rw [polled_polled_one]

/-- Settles O49: the polls find the state of the accept, the engine's turn completes the command, and the last read
sees the completed state. -/
theorem waitEndsWithBusyClear : Obligations.WaitEndsWithBusyClear := by
  intro s polls hb hi hw
  have hole : ¬ s.WindowHole := fun ⟨a, hlo, hhi, hnone⟩ => by simpa [hnone] using hw a hlo hhi
  obtain ⟨t, ht⟩ := exists_engineTurn_next (s := s.polled polls [hostR .status]) hole
  obtain ⟨hidle, -, -⟩ := engineTurn_completes (s := s.polled polls [hostR .status]) hb ht
  obtain ⟨hinputs, hreads⟩ := engineTurn_boundary ht
  refine ⟨t.polled 1 [], t.status.word, s.status.word, ?run, hidle, rfl, ?reads, ?last, ?before⟩
  case run =>
    calc stepMany (polls + 2) s
      _ = stepMany 2 (s.polled polls [.engineTurn, hostR .status]) := stepMany_polls 2 hi
      _ = stepMany 1 t := stepMany_succ_of_next 1 ((step_of_engineTurn rfl).trans ht)
      _ = .next (t.polled 1 []) := stepMany_succ_of_next 0 (step_of_statusRead hinputs)
  case reads => exact congrArg (.reg 0x004 t.status.word :: ·) hreads
  case last => rw [getLsbD_zero_statusWord, hidle]
  case before => rw [getLsbD_zero_statusWord, hb]

end Machine
end Sys2Proof
end

section
/-! PROOF. The header codec: each header word on the wire, the codec's two directions, the image the encode commands
emit, and the commits of DECODE_HEADER and ENCODE_HEADER (40_header_codec.md R110 to R118). -/

namespace Sys2Proof
namespace Machine

/-! ### The two directions of the codec -/

/-- Serialising the parsed header gives back each wire byte: byte `i` is byte `i % 4` of header word `i / 4`. -/
theorem serializeHeader_parseHeader {f : List Byte} (hf : f.length = 296) : serializeHeader (parseHeader f) = f := by
  apply List.ext_getElem?
  intro i
  by_cases hi : i < 296
  case pos =>
    obtain ⟨k, c, hk, hc, rfl⟩ : ∃ k c, k < 74 ∧ c < 4 ∧ i = 4 * k + c := ⟨i / 4, i % 4, by omega, by omega, by omega⟩
    have hw : (slice f (4 * k) 4).length = 4 := length_slice_of_le (by omega)
    rw [getElem?_serializeHeader _ k c hk hc, getElem_parseHeader, wireOfWord_wordOfWire k _ hw,
      getElem?_slice f _ _ _ hc]
  case neg =>
    rw [List.getElem?_eq_none (by rw [length_serializeHeader]; omega), List.getElem?_eq_none (by omega)]

/-- Parsing the serialised header gives back each word. -/
theorem parseHeader_serializeHeader (h : Header) : parseHeader (serializeHeader h) = h :=
  Vector.ext fun k hk => by rw [getElem_parseHeader _ k hk, slice_serializeHeader h k hk, wordOfWire_wireOfWord]

/-- Settles O6. -/
theorem headerCodecLosesNoBit : Obligations.HeaderCodecLosesNoBit :=
  ⟨fun _ hf => serializeHeader_parseHeader hf, parseHeader_serializeHeader⟩

/-! ### Where the parser finds each word -/

/-- A little-endian header word is the number of its four wire bytes. -/
theorem toNat_wordOfWire_littleEndian {j : Nat} {bs : List Byte} (hj : littleEndianWord j = true)
    (hl : bs.length = 4) : (wordOfWire j bs).toNat = leNat bs := by
  have hlt : leNat bs < 2 ^ 32 := by simpa [hl] using leNat_lt bs
  rw [wordOfWire, if_pos hj, BitVec.toNat_ofNat, Nat.mod_eq_of_lt hlt]

theorem toNat_parseHeader_littleEndian {f : List Byte} (hf : f.length = 296) (j a : Nat) (hj : j < 74)
    (he : littleEndianWord j = true) (ha : a = 4 * j) : ((parseHeader f)[j]).toNat = leNat (slice f a 4) := by
  rw [getElem_parseHeader, ha, toNat_wordOfWire_littleEndian he (length_slice_of_le (by omega))]

theorem toNat_parseHeader_bigEndian {f : List Byte} (hf : f.length = 296) (j a : Nat) (hj : j < 74)
    (he : littleEndianWord j = false) (ha : a = 4 * j) : ((parseHeader f)[j]).toNat = beNat (slice f a 4) := by
  rw [getElem_parseHeader, ha, toNat_wordOfWire_bigEndian he (length_slice_of_le (by omega))]

theorem littleEndianWord_of_ge {k : Nat} (hk : 3 ≤ k) : littleEndianWord k = false :=
  decide_eq_false (Nat.not_lt.mpr hk)

/-- Settles O7: word `j` stands at byte `4j`, `dims[i]` is word `7 + i` and `strides[i]` is word `39 + i`. -/
theorem parseHeaderReadsEachField : Obligations.ParseHeaderReadsEachField := by
  intro f hf
  have le := toNat_parseHeader_littleEndian hf
  have be := toNat_parseHeader_bigEndian hf
  refine ⟨le 0 0 (by omega) rfl rfl, le 1 4 (by omega) rfl rfl, le 2 8 (by omega) rfl rfl, be 3 12 (by omega) rfl rfl,
    be 4 16 (by omega) rfl rfl, be 5 20 (by omega) rfl rfl, be 6 24 (by omega) rfl rfl, fun i => ?dims,
    fun i => ?strides, be 71 284 (by omega) rfl rfl, be 72 288 (by omega) rfl rfl, be 73 292 (by omega) rfl rfl⟩
  case dims => exact be (7 + i.val) _ (by omega) (littleEndianWord_of_ge (by omega)) (by omega)
  case strides => exact be (39 + i.val) _ (by omega) (littleEndianWord_of_ge (by omega)) (by omega)

/-! ### The serialised header, field by field -/

theorem wireOfWord_littleEndian {k : Nat} (hk : k < 3) (w : Word) : wireOfWord k w = leBytes 4 w.toNat :=
  if_pos (decide_eq_true hk)

theorem wireOfWord_bigEndian {k : Nat} (hk : 3 ≤ k) (w : Word) : wireOfWord k w = beBytes 4 w.toNat := by
  rw [wireOfWord, littleEndianWord_of_ge hk, if_neg Bool.false_ne_true]

/-- The wire bytes of the `n` header words from word `a`. -/
def wireWords (h : Header) (a n : Nat) (hn : a + n ≤ 74) : List Byte :=
  (List.finRange n).flatMap fun i => wireOfWord (a + i.val) h[a + i.val]

theorem serializeHeader_eq_wireWords (h : Header) : serializeHeader h = wireWords h 0 74 (by omega) := by
  simp [serializeHeader, wireWords]

/-- A run of header words in two parts. -/
theorem wireWords_add (h : Header) (a m n : Nat) (hn : a + (m + n) ≤ 74) :
    wireWords h a (m + n) hn = wireWords h a m (by omega) ++ wireWords h (a + m) n (by omega) := by
  simp [wireWords, List.flatMap_def, ← List.ofFn_eq_map, List.ofFn_add, Nat.add_assoc]

/-- Up to word 2 every word is little-endian. -/
theorem wireWords_littleEndian (h : Header) (a n : Nat) (hn : a + n ≤ 74) (ha : a + n ≤ 3) :
    wireWords h a n hn = (List.finRange n).flatMap fun i => leBytes 4 h[a + i.val].toNat := by
  have hword (i : Fin n) : wireOfWord (a + i.val) h[a + i.val] = leBytes 4 h[a + i.val].toNat :=
    wireOfWord_littleEndian (by omega) _
  simp only [wireWords, hword]

/-- From word 3 every word is big-endian. -/
theorem wireWords_bigEndian (h : Header) (a n : Nat) (hn : a + n ≤ 74) (ha : 3 ≤ a) :
    wireWords h a n hn = (List.finRange n).flatMap fun i => beBytes 4 h[a + i.val].toNat := by
  simp only [wireWords, wireOfWord_bigEndian (Nat.le_add_right_of_le ha)]

theorem flatMap_finRange_three (f : Fin 3 → List Byte) : (List.finRange 3).flatMap f = f 0 ++ f 1 ++ f 2 := by
  simp [List.finRange_succ]

theorem flatMap_finRange_four (f : Fin 4 → List Byte) : (List.finRange 4).flatMap f = f 0 ++ f 1 ++ f 2 ++ f 3 := by
  simp [List.finRange_succ]

/-- The runs of words of one byte order and one shape: the little-endian words 0 to 2, words 3 to 6, `dims`, `strides`
and words 71 to 73. -/
theorem serializeHeader_eq_runs (h : Header) :
    serializeHeader h = wireWords h 0 3 (by omega) ++ wireWords h 3 4 (by omega) ++ wireWords h 7 32 (by omega) ++
      wireWords h 39 32 (by omega) ++ wireWords h 71 3 (by omega) := by
  rw [← wireWords_add h 0 3 4 (by omega), ← wireWords_add h 0 7 32 (by omega), ← wireWords_add h 0 39 32 (by omega),
    ← wireWords_add h 0 71 3 (by omega)]
  exact serializeHeader_eq_wireWords h

/-- Settles O8: each run's words are the named fields, in order. -/
theorem serializeHeaderConcatenatesFields : Obligations.SerializeHeaderConcatenatesFields := by
  intro h
  refine ⟨?_, length_serializeHeader h⟩
  rw [serializeHeader_eq_runs, wireWords_littleEndian h 0 3 _ (by omega), wireWords_bigEndian h 3 4 _ (by omega),
    wireWords_bigEndian h 7 32 _ (by omega), wireWords_bigEndian h 39 32 _ (by omega),
    wireWords_bigEndian h 71 3 _ (by omega), flatMap_finRange_three, flatMap_finRange_four, flatMap_finRange_three]
  simp only [List.append_assoc]
  rfl

/-! ### The image the encode commands emit -/

theorem encodeHeaderWord_upperDims (pc dx dy n : Nat) {k : Nat} (old : Word) (hk : 9 ≤ k ∧ k ≤ 38) :
    encodeHeaderWord pc dx dy n k old = 1 := by
  rw [encodeHeaderWord]
  repeat rw [if_neg (by omega)]
  rw [if_pos hk]

theorem encodeHeaderWord_upperStrides (pc dx dy n : Nat) {k : Nat} (old : Word) (hk : 41 ≤ k ∧ k ≤ 70) :
    encodeHeaderWord pc dx dy n k old = 0 := by
  rw [encodeHeaderWord]
  repeat rw [if_neg (by omega)]
  rw [if_pos hk]

/-- Settles O10: each named field is one word of the image, and the unused array slots are two runs of words. -/
theorem encodeHeaderImageFields : Obligations.EncodeHeaderImageFields := by
  intro hrf pc dx dy n
  have word := getElem_encodeHeaderImage hrf pc dx dy n
  refine ⟨word 0 _, word 1 _, word 2 _, word 3 _, word 72 _, word 73 _, word 4 _, word 5 _, word 6 _, word 7 _,
    word 8 _, fun i hi => ?dims, word 39 _, word 40 _, fun i hi => ?strides, word 71 _⟩
  case dims => exact (word (7 + i.val) _).trans (encodeHeaderWord_upperDims pc dx dy n _ (by omega))
  case strides => exact (word (39 + i.val) _).trans (encodeHeaderWord_upperStrides pc dx dy n _ (by omega))

/-! ### What DECODE_HEADER and ENCODE_HEADER commit -/

/-- The completed state of a command that commits a header image. -/
theorem completeSuccess_header (s : State) (h : Header) (out : List Byte) (r : Results) :
    s.completeSuccess ⟨some h, out, r⟩ = { s with
      hrf := h
      dst := s.dst.writeBytes 0 out
      results := r
      status := { s.status with busy := false, done := true, err := false, hdrValid := true }
      errcode := 0 } := rfl

/-- Settles O11: with no output bytes, DST stays as it is. -/
theorem decodeHeaderCommitsTheHeader : Obligations.DecodeHeaderCommitsTheHeader := by
  intro s f ha hf
  rw [exec_of_commits (i := .decodeHeader) ⟨f, ha, hf, rfl⟩, completeSuccess_header, Memory.writeBytes]
  rfl

/-- Settles O12. -/
theorem encodeHeaderCommitsTheImage : Obligations.EncodeHeaderCommitsTheImage := by
  intro s g hg hd
  rw [exec_of_commits (i := .encodeHeader) ⟨g, hg, hd, rfl⟩, completeSuccess_header]
  rfl

end Machine
end Sys2Proof
end

section
/-! PROOF. The row geometry and the keep/skip rule: what a padded row is, which payload group each kept group is, and
the laws of de-striding that follow (41_payload_decode.md R132 to R136, R141, R142). -/

namespace Sys2Proof
namespace Machine

/-! ### The row geometry -/

/-- A row stride that is a positive number of plane-groups. -/
theorem deriveGeometry_sg_pos {stride pc : Nat} (hpc : 0 < pc) (hs : 0 < stride) (hd : pc ∣ stride) (dx : Nat) :
    0 < (deriveGeometry stride pc dx).sg :=
  Nat.div_pos (Nat.le_of_dvd hs hd) hpc

theorem deriveGeometry_fill_lt {stride pc dx : Nat} (h : 0 < (deriveGeometry stride pc dx).sg) :
    (deriveGeometry stride pc dx).fill < (deriveGeometry stride pc dx).sg :=
  Nat.mod_lt _ h

theorem deriveGeometry_block (stride pc dx : Nat) :
    (deriveGeometry stride pc dx).block = dx + (deriveGeometry stride pc dx).fill := rfl

/-- The filler completes the row to whole strides: `dx + fill ≡ dx mod sg + (sg - dx mod sg) ≡ 0` (R133 (c)). -/
theorem deriveGeometry_sg_dvd_block {stride pc dx : Nat} (h : 0 < (deriveGeometry stride pc dx).sg) :
    (deriveGeometry stride pc dx).sg ∣ (deriveGeometry stride pc dx).block := by
  change stride / pc ∣ dx + (stride / pc - dx % (stride / pc)) % (stride / pc)
  have hle : dx % (stride / pc) ≤ stride / pc := (Nat.mod_lt dx h).le
  rw [Nat.dvd_iff_mod_eq_zero, Nat.add_mod_mod, ← Nat.mod_add_mod, Nat.add_sub_cancel' hle, Nat.mod_self]

/-- A padded row is the least multiple of the row stride that holds the row (R133 (f)): a smaller one would leave
room for a whole stride in less than a stride of filler. -/
theorem deriveGeometry_block_le {stride pc dx m : Nat} (h : 0 < (deriveGeometry stride pc dx).sg)
    (hm : (deriveGeometry stride pc dx).sg ∣ m) (hdx : dx ≤ m) : (deriveGeometry stride pc dx).block ≤ m := by
  by_contra hlt
  have hgap : (deriveGeometry stride pc dx).sg ≤ (deriveGeometry stride pc dx).block - m :=
    Nat.le_of_dvd (by omega) (Nat.dvd_sub (deriveGeometry_sg_dvd_block h) hm)
  have hfill := deriveGeometry_fill_lt h
  rw [deriveGeometry_block] at hgap
  omega

/-- Settles O27: `block` is the least multiple of `sg` that is at least `dx`; when `dx` or `sg` is such a multiple,
it is that one. -/
theorem rowGeometryProperties : Obligations.RowGeometryProperties := by
  intro stride pc dx hpc hs hd hdx r
  have hsg : 0 < r.sg := deriveGeometry_sg_pos hpc hs hd dx
  have hblock : r.block = dx + r.fill := deriveGeometry_block stride pc dx
  have hdvd : r.sg ∣ r.block := deriveGeometry_sg_dvd_block hsg
  have hleast : ∀ m, r.sg ∣ m → dx ≤ m → r.block ≤ m := fun m => deriveGeometry_block_le hsg
  refine ⟨rfl, deriveGeometry_fill_lt hsg, by omega, by omega, Nat.mod_eq_zero_of_dvd hdvd, ?whole, ?wide,
    fun _ => hleast⟩
  case whole =>
    intro hsd
    have hle : r.block ≤ dx := hleast dx hsd le_rfl
    omega
  case wide =>
    intro hle
    exact le_antisymm (hleast r.sg dvd_rfl hle) (Nat.le_of_dvd (by omega) hdvd)

/-! ### The kept groups -/

/-- `j(k)`, the payload group that is the `k`-th kept one (41_payload_decode.md R135). -/
def keptIndex (block dx k : Nat) : Nat := k / dx * block + k % dx

/-- The next kept group: where the rule keeps group `n`, it is the one numbered by the groups kept before it. -/
theorem keptIndex_keptCount {n block dx : Nat} (h : n % block < dx) :
    keptIndex block dx (keptCount n block dx) = n := by
  obtain ⟨hq, hr⟩ : keptCount n block dx / dx = n / block ∧ keptCount n block dx % dx = n % block :=
    (Nat.div_mod_unique (by omega)).mpr ⟨by rw [keptCount, Nat.min_eq_left h.le, Nat.mul_comm, Nat.add_comm], h⟩
  rw [keptIndex, hq, hr, Nat.div_add_mod']

/-- The groups that the keep/skip rule keeps, in order, are the groups `j(0), j(1), …` (41_payload_decode.md R135). -/
theorem filter_kept_eq_map_keptIndex {block dx : Nat} (n : Nat) (hb : 0 < block) (hdx : dx ≤ block) :
    ((List.range n).filter fun j => decide (j % block < dx)) =
      (List.range (keptCount n block dx)).map (keptIndex block dx) := by
  induction n with
  | zero => simp [keptCount]
  | succ n ih =>
    rw [keptCount_succ hb hdx, List.range_succ, List.filter_append, ih]
    by_cases h : n % block < dx
    · simp [h, List.range_succ, keptIndex_keptCount h]
    · simp [h]

/-- De-striding gives the slices of the groups `j(0), j(1), …`. -/
theorem destride_eq_flatMap_keptIndex {dx block : Nat} (raw : List Byte) (pc : Nat) (hb : 0 < block)
    (hdx : dx ≤ block) :
    destride raw pc dx block = (List.range (keptCount (raw.length / pc) block dx)).flatMap fun k =>
      slice raw (keptIndex block dx k * pc) pc := by
  rw [destride_eq_flatMap_filter, filter_kept_eq_map_keptIndex _ hb hdx, List.flatMap_map]

/-- A kept group is a group of the payload. -/
theorem keptIndex_lt {n block dx k : Nat} (hb : 0 < block) (hdx : dx ≤ block) (hk : k < keptCount n block dx) :
    keptIndex block dx k < n := by
  have hmem : keptIndex block dx k ∈ (List.range n).filter fun j => decide (j % block < dx) := by
    rw [filter_kept_eq_map_keptIndex n hb hdx]
    exact List.mem_map_of_mem (List.mem_range.mpr hk)
  exact List.mem_range.mp (List.mem_filter.mp hmem).1

/-- Byte `c` of kept group `k` is byte `c` of payload group `j(k)`. -/
theorem getElem?_destride {raw : List Byte} {pc dx block k c : Nat} (hb : 0 < block) (hdx : dx ≤ block)
    (hk : k < keptCount (raw.length / pc) block dx) (hc : c < pc) :
    (destride raw pc dx block)[k * pc + c]? = raw[keptIndex block dx k * pc + c]? := by
  rw [destride_eq_flatMap_keptIndex raw pc hb hdx, getElem?_flatMap_const _ _ pc ?lengths k c hc,
    List.getElem?_range hk, Option.bind_some, getElem?_slice _ _ _ _ hc]
  case lengths => exact fun j hj => length_slice_group (keptIndex_lt hb hdx (List.mem_range.mp hj))

/-- The groups that the keep/skip rule skips are those it does not keep. -/
theorem length_filter_skipped {block dx : Nat} (n : Nat) (hb : 0 < block) (hdx : dx ≤ block) :
    ((List.range n).filter fun j => decide (¬ j % block < dx)).length = n - keptCount n block dx := by
  have hsum := List.length_eq_length_filter_add (l := List.range n) fun j => decide (j % block < dx)
  rw [length_filter_kept n hb hdx, List.length_range] at hsum
  simp only [decide_not]
  omega

/-- Settles O28. -/
theorem keptGroupsClosedForm : Obligations.KeptGroupsClosedForm := by
  intro raw pc dx block _ hdx hle groups kept
  have hb : 0 < block := hdx.trans_le hle
  exact ⟨length_filter_kept groups hb hle, length_filter_skipped groups hb hle, length_destride raw pc hb hle,
    fun k c hk hc => getElem?_destride hb hle hk hc⟩

/-! ### Bytes after the last group, and payloads without padding -/

theorem slice_append_left {s : List Byte} {a n : Nat} (t : List Byte) (h : a + n ≤ s.length) :
    slice (s ++ t) a n = slice s a n := by
  rw [slice, slice, List.drop_append_of_le_length (by omega), List.take_append_of_le_length (by simp; omega)]

theorem slice_append_right (s t : List Byte) (a n : Nat) : slice (s ++ t) (s.length + a) n = slice t a n := by
  rw [slice, slice, List.drop_length_add_append]

/-- The end of plane-group `j` of `n`. -/
theorem group_end_le {j n : Nat} (pc : Nat) (h : j < n) : j * pc + pc ≤ n * pc :=
  (Nat.succ_mul j pc).symm.trans_le (Nat.mul_le_mul_right pc h)

/-- Settles O29: the tail adds no plane-group, and every whole group lies before it. -/
theorem trailingBytesAreNotCopied : Obligations.TrailingBytesAreNotCopied := by
  intro whole tail pc dx block groups hpc hw ht
  have hgroups : (whole ++ tail).length / pc = groups := by
    rw [List.length_append, hw, Nat.mul_comm, Nat.mul_add_div hpc, Nat.div_eq_of_lt ht, Nat.add_zero]
  rw [destride, destride, hgroups, hw, Nat.mul_div_cancel groups hpc]
  refine List.flatMap_congr fun j hj => ?_
  have hend : j * pc + pc ≤ whole.length := hw ▸ group_end_le pc (List.mem_range.mp hj)
  rw [slice_append_left tail hend]

/-- The first `n` plane-groups, one after the other, are the first `n * pc` bytes. -/
theorem flatMap_slice_range (raw : List Byte) (pc n : Nat) :
    ((List.range n).flatMap fun j => slice raw (j * pc) pc) = raw.take (n * pc) := by
  induction n with
  | zero => simp
  | succ n ih =>
    have hnext := slice_add raw 0 (n * pc) pc
    rw [slice, slice, List.drop_zero, Nat.zero_add] at hnext
    rw [List.range_succ, List.flatMap_append, ih, List.flatMap_singleton, Nat.succ_mul, hnext]

/-- With a stride of one unpadded row there is no filler (41_payload_decode.md R141). -/
theorem deriveGeometry_unpadded {pc : Nat} (hpc : 0 < pc) (dx : Nat) :
    deriveGeometry (pc * dx) pc dx = ⟨dx, 0, dx⟩ := by
  simp [deriveGeometry, Nat.mul_div_cancel_left dx hpc]

/-- With a row as wide as its pixels every plane-group is kept. -/
theorem destride_unpadded {dx : Nat} (raw : List Byte) (pc : Nat) (hdx : 0 < dx) :
    destride raw pc dx dx = raw.take (raw.length / pc * pc) := by
  rw [← flatMap_slice_range, destride]
  exact List.flatMap_congr fun j _ => if_pos (Nat.mod_lt j hdx)

/-- Settles O30. -/
theorem noPaddingKeepsEveryGroup : Obligations.NoPaddingKeepsEveryGroup :=
  fun raw pc dx hpc hdx => ⟨deriveGeometry_unpadded hpc dx, destride_unpadded raw pc hdx⟩

/-! ### Row by row -/

/-- A padded row at the front of a payload is de-strided by itself: the groups after it start a new row. -/
theorem destride_append_row {row : List Byte} {pc block : Nat} (rest : List Byte) (dx : Nat) (hpc : 0 < pc)
    (hrow : row.length = block * pc) :
    destride (row ++ rest) pc dx block = destride row pc dx block ++ destride rest pc dx block := by
  have hgroups : (row ++ rest).length / pc = block + rest.length / pc := by
    rw [List.length_append, hrow, Nat.mul_comm, Nat.mul_add_div hpc]
  rw [destride, hgroups, List.range_add, List.flatMap_append, List.flatMap_map, destride, destride, hrow,
    Nat.mul_div_cancel block hpc]
  congr 1
  · refine List.flatMap_congr fun j hj => ?_
    have hend : j * pc + pc ≤ row.length := hrow ▸ group_end_le pc (List.mem_range.mp hj)
    rw [slice_append_left rest hend]
  · refine List.flatMap_congr fun j _ => ?_
    rw [Nat.add_mod_left, Nat.add_mul, ← hrow, slice_append_right]

/-- Padded rows are de-strided each by itself. -/
theorem destride_flatten_replicate {row : List Byte} {pc block : Nat} (dx : Nat) (hpc : 0 < pc)
    (hrow : row.length = block * pc) (rows : Nat) :
    destride (List.replicate rows row).flatten pc dx block =
      (List.replicate rows (destride row pc dx block)).flatten := by
  induction rows with
  | zero => simp [destride]
  | succ rows ih =>
    rw [List.replicate_succ, List.flatten_cons, destride_append_row _ dx hpc hrow, ih, List.replicate_succ,
      List.flatten_cons]

/-- Settles O31: one row `[a, b, c, x]` de-strides to `[a, b, c]`, and so does each of many. -/
theorem paddingByteIsSkippedInEachRow : Obligations.PaddingByteIsSkippedInEachRow := by
  refine ⟨by decide, fun a b c x rows => ?_⟩
  have hone : destride [a, b, c, x] 1 3 4 = [a, b, c] := by
    simp [destride, slice, List.range_succ]
  rw [destride_flatten_replicate (block := 4) 3 Nat.one_pos rfl rows, hone]

end Machine
end Sys2Proof
end

section
/-! PROOF. The command DESTRIDE: what it commits, and that a one-dimensional image has no second dimension
(41_payload_decode.md R137, R139). -/

namespace Sys2Proof
namespace Machine

/-- The completed state of a command that commits no header image: the HRF and HDR_VALID stay. -/
theorem completeSuccess_noHeader (s : State) (out : List Byte) (r : Results) :
    s.completeSuccess ⟨none, out, r⟩ = { s with
      dst := s.dst.writeBytes 0 out
      results := r
      status := { s.status with busy := false, done := true, err := false }
      errcode := 0 } := rfl

/-- Settles O13. -/
theorem destrideCommitsTheKeptGroups : Obligations.DestrideCommitsTheKeptGroups := by
  intro s g raw hg ha hr sg fill block groups kept hk
  rw [exec_of_commits (i := .destride) ⟨g, raw, hg, ha, hk, hr, rfl⟩, completeSuccess_noHeader]
  rfl

/-! ### The second dimension -/

/-- `s` with another header image in the HRF. -/
def State.withHrf (s : State) (h : Header) : State := { s with hrf := h }

/-- With `dim_count = 1` the decode geometry does not depend on header word 8 (41_payload_decode.md R130, R139). -/
theorem validateDecodeGeometry_set_dims1 (slot : Fin 2) {h : Header} (v : Word) (hd : h.dimCount = 1) :
    validateDecodeGeometry slot (h.set 8 v) = validateDecodeGeometry slot h := by
  have hword : ∀ (k : Nat) (hk : k < 74), k ≠ 8 → (h.set 8 v)[k] = h[k] :=
    fun k hk hne => Vector.getElem_set_ne _ _ hne.symm
  have hsample : Header.sampleType (h.set 8 v) = h.sampleType := hword 5 _ (by omega)
  have hcount : Header.dimCount (h.set 8 v) = h.dimCount := hword 6 _ (by omega)
  have hplanes : Header.planeCount (h.set 8 v) = h.planeCount := hword 4 _ (by omega)
  have hwidth : Header.dims (h.set 8 v) 0 = h.dims 0 := hword 7 _ (by omega)
  have hsize : Header.dataSize (h.set 8 v) = h.dataSize := hword 71 _ (by omega)
  have hstride : Header.rowStride (h.set 8 v) slot = h.rowStride slot := hword (39 + slot.val) _ (by omega)
  have hone : ¬ s32 h.dimCount = 2 := by rw [hd]; decide
  simp only [validateDecodeGeometry, hsample, hcount, hplanes, hwidth, hsize, hstride, hone, false_and]

/-- DESTRIDE uses the HRF only for its geometry, and commits no header image: over two HRFs of one geometry it is one
computation. -/
theorem exec_destride_withHrf {s : State} {h : Header}
    (hv : validateDecodeGeometry s.caps.rowStrideSlot h = validateDecodeGeometry s.caps.rowStrideSlot s.hrf) :
    ∃ c : Cmd Commit, exec .destride s = s.finish c ∧ exec .destride (s.withHrf h) = (s.withHrf h).finish c ∧
      ∀ k, c = .ok k → k.header = none := by
  refine ⟨_, rfl, by simp only [exec, execDestride, State.withHrf, hv]; rfl, fun k hk => ?_⟩
  simp only [Cmd.bind_eq_ok_iff, Cmd.pure_eq, Except.ok.injEq] at hk
  obtain ⟨g, -, -, -, -, -, raw, -, rfl⟩ := hk
  rfl

/-- The end of a computation that commits no header image leaves whatever image the HRF holds. -/
theorem finish_withHrf {s t : State} {c : Cmd Commit} (h : Header) (hc : ∀ k, c = .ok k → k.header = none)
    (hf : s.finish c = .next t) : t.hrf = s.hrf ∧ (s.withHrf h).finish c = .next (t.withHrf h) := by
  rcases (finish_eq_next_iff s t c).mp hf with ⟨⟨header, out, r⟩, rfl, rfl⟩ | ⟨e, rfl, rfl⟩
  · obtain rfl : header = none := hc _ rfl
    exact ⟨rfl, rfl⟩
  · exact ⟨rfl, rfl⟩

/-- Settles O32: the geometry stays the same, so DESTRIDE takes the same course and leaves the HRF alone. -/
theorem secondDimensionUnusedWhenOneDimensional : Obligations.SecondDimensionUnusedWhenOneDimensional := by
  intro s t v hd hexec
  obtain ⟨c, hs, hs', hc⟩ := exec_destride_withHrf (validateDecodeGeometry_set_dims1 s.caps.rowStrideSlot v hd)
  obtain ⟨hhrf, hfin⟩ := finish_withHrf (s.hrf.set 8 v) hc (hs.symm.trans hexec)
  rw [hhrf]
  exact hs'.trans hfin

end Machine
end Sys2Proof
end

section
/-! PROOF. The command RESTRIDE and the encoder's row stride: re-striding returns its input, what RESTRIDE commits, and
that an encoded image decodes without filler (42_payload_encode.md R150 to R152). -/

namespace Sys2Proof
namespace Machine

/-! ### Re-striding -/

theorem slice_drop (s : List Byte) (b a n : Nat) : slice (s.drop b) a n = slice s (b + a) n := by
  rw [slice, slice, List.drop_drop]

/-- The pixels of row `y`, one after the other, are the row's bytes as they stand in the dense buffer. -/
theorem flatMap_slice_row (dense : List Byte) (pc dx y : Nat) :
    ((List.range dx).flatMap fun x => slice dense ((y * dx + x) * pc) pc) =
      slice dense (y * (dx * pc)) (dx * pc) := by
  rw [slice, ← flatMap_slice_range]
  simp only [slice_drop, ← Nat.mul_assoc, ← Nat.add_mul]

/-- Settles O33: the rows, one after the other, are the first `dy` rows of the buffer, which holds no more. -/
theorem restrideReturnsItsInput : Obligations.RestrideReturnsItsInput := by
  intro dense pc dx dy hl
  have hall : dense.length = dy * (dx * pc) := by rw [hl, Nat.mul_comm dx dy, Nat.mul_assoc]
  calc restride dense pc dx dy
      = (List.range dy).flatMap fun y => slice dense (y * (dx * pc)) (dx * pc) := by
        simp only [restride, flatMap_slice_row]
    _ = dense.take (dy * (dx * pc)) := flatMap_slice_range dense (dx * pc) dy
    _ = dense := List.take_of_length_le hall.le

/-- The dense buffer of an admitted geometry is its own wire payload. -/
theorem EncodeGeometryOk.restride_eq {h : Header} {g : EncodeGeometry} {dense : List Byte} (hg : EncodeGeometryOk h g)
    (hl : dense.length = g.n) : restride dense g.pc g.dx g.dy = dense :=
  restrideReturnsItsInput dense g.pc g.dx g.dy (hl.trans hg.size)

/-- Settles O14. -/
theorem restrideCommitsTheDenseBytes : Obligations.RestrideCommitsTheDenseBytes := by
  intro s g dense hg ha hd hr
  rw [exec_of_commits (i := .restride) ⟨g, dense, hg, ha, hd, hr, rfl⟩, completeSuccess_noHeader,
    hg.restride_eq (Memory.length_readBytes hr)]
  rfl

/-! ### The encoder's row stride -/

/-- A number below 2^31, stored in a header word, reads back as itself. -/
theorem s32_u32 {v : Nat} (h : v < 2 ^ 31) : s32 (u32 v) = v := by
  have hv : (u32 v).toNat = v := toNat_u32 (by omega)
  rw [s32, BitVec.toInt_eq_toNat_of_lt (by omega), hv]

/-- One row of an admitted geometry is no longer than the whole payload. -/
theorem EncodeGeometryOk.row_le {h : Header} {g : EncodeGeometry} (hg : EncodeGeometryOk h g) : g.pc * g.dx ≤ g.n :=
  calc g.pc * g.dx ≤ g.pc * g.dx * g.dy := Nat.le_mul_of_pos_right _ hg.heightPos
    _ = g.n := by rw [hg.size, Nat.mul_assoc, Nat.mul_comm]

theorem EncodeGeometryOk.groups_eq {h : Header} {g : EncodeGeometry} (hg : EncodeGeometryOk h g) :
    g.n / g.pc = g.dx * g.dy := by
  rw [hg.size, Nat.mul_div_cancel _ hg.planeCountPos]

/-- The encoder writes the row stride to both slots that ROW_STRIDE_SLOT can name (40_header_codec.md R115). -/
theorem rowStride_encodeHeaderImage (hrf : Header) (pc dx dy n : Nat) (slot : Fin 2) :
    (encodeHeaderImage hrf pc dx dy n).rowStride slot = u32 (pc * dx) := by
  obtain ⟨-, -, -, -, -, -, -, -, -, -, -, -, hstride0, hstride1, -, -⟩ := encodeHeaderImageFields hrf pc dx dy n
  match slot with
  | 0 => exact hstride0
  | 1 => exact hstride1

/-- The image the encoder emits passes the decode checks: its plane count and dimensions are those of the HRF, and its
size and row stride are at most `n`, so none of them wraps. -/
theorem EncodeGeometryOk.decodeGeometryOk {hrf : Header} {g : EncodeGeometry} (hg : EncodeGeometryOk hrf g)
    (slot : Fin 2) :
    DecodeGeometryOk slot (encodeHeaderImage hrf g.pc g.dx g.dy g.n) ⟨g.pc, g.dx, g.n, g.pc * g.dx⟩ := by
  obtain ⟨-, -, -, -, -, -, hplanes, hsample, hcount, hwidth, hheight, -, -, -, -, hsize⟩ :=
    encodeHeaderImageFields hrf g.pc g.dx g.dy g.n
  have hn : g.n < 2 ^ 31 := Nat.lt_of_le_pred (by decide) hg.sizeFits
  have hdy : s32 (u32 g.dy) = g.dy := s32_u32 (lt_of_s32_eq hg.height)
  exact {
    sampleType := by rw [hsample]; rfl
    dimCount := .inr ⟨by rw [hcount]; rfl, by rw [hheight, hdy]; exact_mod_cast hg.heightPos⟩
    planeCount := by rw [hplanes, s32_u32 (lt_of_s32_eq hg.planeCount)]
    planeCountPos := hg.planeCountPos
    width := by rw [hwidth, s32_u32 (lt_of_s32_eq hg.width)]
    widthPos := hg.widthPos
    dataSize := by rw [hsize, s32_u32 hn]
    stride := by rw [rowStride_encodeHeaderImage, s32_u32 (hg.row_le.trans_lt hn)]
    stridePos := Nat.mul_pos hg.planeCountPos hg.widthPos
    strideWhole := Nat.dvd_mul_right g.pc g.dx }

/-- Without filler every plane-group is kept. -/
theorem keptCount_unpadded (groups : Nat) {dx : Nat} (hdx : 0 < dx) : keptCount groups dx dx = groups := by
  rw [keptCount, Nat.min_eq_left (Nat.mod_lt groups hdx).le, Nat.div_add_mod']

/-- Settles O34. -/
theorem encodedStrideHasNoFill : Obligations.EncodedStrideHasNoFill := by
  intro hrf g slot hg
  exact ⟨hg.decodeGeometryOk slot, deriveGeometry_unpadded hg.planeCountPos g.dx,
    (keptCount_unpadded _ hg.widthPos).trans hg.groups_eq, hg.groups_eq⟩

end Machine
end Sys2Proof
end

section
/-! PROOF. The composite commands: what DECODE and ENCODE commit, that DECODE inverts ENCODE, and that DECODE does the
work of DECODE_HEADER and DESTRIDE (43_composite.md R170 to R172). -/

namespace Sys2Proof
namespace Machine

/-- A command that goes on without an error has committed. -/
theorem commits_of_exec {i : Instr} {s t : State} (h : exec i s = .next t) (herr : t.status.err = false) :
    ∃ c, Commits i s c ∧ t = s.completeSuccess c := by
  rcases exec_cases h with hc | ⟨e, -, rfl⟩
  · exact hc
  · cases herr

/-- A range from SRC_OFF that SRC_LEN covers is available (10_state.md R38). -/
theorem le_avail_of_covered {s : State} {n : Nat} (h : s.srcOff.toNat + n ≤ s.srcLen.toNat) : n ≤ s.avail := by
  unfold State.avail; split <;> omega

/-! ### What DECODE and ENCODE commit -/

/-- Settles O15. -/
theorem decodeCommitsHeaderAndPixels : Obligations.DecodeCommitsHeaderAndPixels := by
  intro s f raw g hf hg ha hr sg fill block groups kept hk
  have hc : Commits .decode s _ := ⟨f, g, raw, by omega, hf, hg, by omega, hk, hr, rfl⟩
  rw [exec_of_commits hc, completeSuccess_header]
  rfl

/-- Settles O16. -/
theorem encodeCommitsTheFrame : Obligations.EncodeCommitsTheFrame := by
  intro s g dense hg ha hd hr
  rw [exec_of_commits (i := .encode) ⟨g, dense, hg, ha, hd, hr, rfl⟩, completeSuccess_header,
    hg.restride_eq (Memory.length_readBytes hr)]
  rfl

/-! ### Decoding a frame that ENCODE built -/

/-- A sequence in memory lies there part by part. -/
theorem Memory.readBytes_append {m : Memory} {a j n : Nat} {xs ys : List Byte}
    (h : m.readBytes a (j + n) = some (xs ++ ys)) (hx : xs.length = j) :
    m.readBytes a j = some xs ∧ m.readBytes (a + j) n = some ys := by
  subst hx
  obtain ⟨hl, hread⟩ := (Memory.readBytes_eq_some_iff ..).mp h
  rw [List.length_append, Nat.add_left_cancel_iff] at hl
  refine ⟨(Memory.readBytes_eq_some_iff ..).mpr ⟨rfl, fun k hk => ?_⟩,
    (Memory.readBytes_eq_some_iff ..).mpr ⟨hl, fun k hk => ?_⟩⟩
  · rw [hread k (by omega), List.getElem?_append_left hk]
  · rw [Nat.add_assoc, hread (xs.length + k) (by omega), List.getElem?_append_right (by omega),
      Nat.add_sub_cancel_left]

/-- A copy of the OUT_LEN bytes that a commit left in DST is a copy of its output (20_memory.md R62). -/
theorem Commits.readBytes_of_copy {i : Instr} {s : State} {c : Commit} {m : Memory} {a : Nat} (hc : Commits i s c)
    (hcopy : ∀ k, k < c.results.outLen.toNat → m.read (a + k) = (s.completeSuccess c).dst.read k) :
    m.readBytes a c.out.length = some c.out := by
  obtain ⟨hout, -⟩ := hc.outLen
  refine (Memory.readBytes_eq_some_iff ..).mpr ⟨rfl, fun k hk => ?_⟩
  rw [hcopy k (hout ▸ hk), State.completeSuccess_dst, outputLandsFromAddressZero, if_pos hk]

/-- The decode geometry of the image that the encoder emits for `g` (42_payload_encode.md R152). -/
def EncodeGeometry.decoded (g : EncodeGeometry) : DecodeGeometry := ⟨g.pc, g.dx, g.n, g.pc * g.dx⟩

section
variable {h : Header} {g : EncodeGeometry} (hg : EncodeGeometryOk h g)
include hg

theorem EncodeGeometryOk.n_lt : g.n < 2 ^ 31 := Nat.lt_of_le_pred (by decide) hg.sizeFits

/-- The encoder leaves no filler: a padded row is `dx` plane-groups. -/
theorem EncodeGeometryOk.rowGeometry_decoded :
    deriveGeometry g.decoded.stride g.decoded.pc g.decoded.dx = ⟨g.dx, 0, g.dx⟩ :=
  deriveGeometry_unpadded hg.planeCountPos g.dx

/-- Decoding keeps each of the `dx * dy` pixels. -/
theorem EncodeGeometryOk.keptCount_decoded : keptCount (g.decoded.ds / g.decoded.pc) g.dx g.decoded.dx = g.dx * g.dy :=
  (keptCount_unpadded _ hg.widthPos).trans hg.groups_eq

theorem EncodeGeometryOk.keptBytes_decoded : keptBytes g.decoded = g.n := by
  rw [keptBytes, hg.rowGeometry_decoded, hg.keptCount_decoded]
  exact hg.size.symm

/-- The results of decoding the encoder's image (43_composite.md R172). -/
theorem EncodeGeometryOk.decodeResults_decoded (consumed : Nat) :
    decodeResults consumed g.decoded ⟨g.dx, 0, g.dx⟩ =
      ⟨u32 consumed, u32 g.n, u32 g.dx, 0, u32 g.dx, u32 (g.dx * g.dy), 0⟩ := by
  have hgroups : g.decoded.ds / g.decoded.pc = g.dx * g.dy := hg.groups_eq
  have hsize : g.dx * g.dy * g.decoded.pc = g.n := hg.size.symm
  rw [decodeResults, hg.keptCount_decoded, hgroups, hsize, Nat.sub_self]
  rfl

/-- De-striding undoes the encoder's layout: every byte of the payload is kept. -/
theorem EncodeGeometryOk.destride_dense {dense : List Byte} (hl : dense.length = g.n) :
    destride dense g.pc g.dx g.dx = dense := by
  rw [destride_unpadded dense g.pc hg.widthPos, hl, hg.groups_eq, ← hg.size, ← hl, List.take_length]

/-- DECODE commits the header image and the dense bytes of a frame that stands in the window. -/
theorem EncodeGeometryOk.commits_decode_of_frame {u : State} {dense : List Byte} (hl : dense.length = g.n)
    (ha : 296 + g.n ≤ u.avail) (hd : g.n ≤ u.caps.dstSize.toNat)
    (hr : u.src.readBytes u.srcOff.toNat (296 + g.n) =
      some (serializeHeader (encodeHeaderImage h g.pc g.dx g.dy g.n) ++ dense)) :
    Commits .decode u ⟨some (encodeHeaderImage h g.pc g.dx g.dy g.n), dense,
      ⟨u32 (296 + g.n), u32 g.n, u32 g.dx, 0, u32 g.dx, u32 (g.dx * g.dy), 0⟩⟩ := by
  obtain ⟨hheader, hpayload⟩ := Memory.readBytes_append hr (length_serializeHeader _)
  refine ⟨_, g.decoded, dense, by omega, hheader, ?geometry, Nat.le_sub_of_add_le' ha, ?kept, hpayload, ?commit⟩
  case geometry =>
    rw [parseHeader_serializeHeader]
    exact hg.decodeGeometryOk _
  case kept => rwa [hg.keptBytes_decoded]
  case commit =>
    rw [parseHeader_serializeHeader, hg.rowGeometry_decoded, hg.decodeResults_decoded]
    exact congrArg (Commit.mk _ · _) (hg.destride_dense hl).symm

end

/-- Settles O57: DST holds the serialised image and the dense bytes, and DECODE undoes both parts. -/
theorem encodeThenDecodeRoundTrip : Obligations.EncodeThenDecodeRoundTrip := by
  intro s t u hexec herr hcaps hwindow hcopy
  obtain ⟨c, hc, rfl⟩ := commits_of_exec hexec herr
  have hframe := hc.readBytes_of_copy hcopy
  obtain ⟨hout, -⟩ := hc.outLen
  obtain ⟨g, dense, hg, -, hd, hr, rfl⟩ := hc
  obtain ⟨hl, hdense⟩ := (Memory.readBytes_eq_some_iff ..).mp hr
  have hlen : (serializeHeader (encodeHeaderImage s.hrf g.pc g.dx g.dy g.n) ++ dense).length = 296 + g.n := by
    rw [List.length_append, length_serializeHeader, hl]
  rw [State.completeSuccess_results] at hwindow ⊢
  rw [hg.restride_eq hl, hlen] at hframe hout
  rw [hout] at hwindow ⊢
  have hdecode := hg.commits_decode_of_frame hl (le_avail_of_covered hwindow) (by rw [hcaps]; omega) hframe
  have hn : (u32 g.n).toNat = g.n := toNat_u32 (hg.n_lt.trans (by decide))
  have hpixels : (u32 (g.dx * g.dy)).toNat = g.dx * g.dy :=
    toNat_u32 ((hg.groups_eq ▸ Nat.div_le_self _ _).trans_lt (hg.n_lt.trans (by decide)))
  refine ⟨_, exec_of_commits hdecode, rfl, rfl, ?outLen, fun k hk => ?dense, ?keptCount, rfl⟩
  case outLen => rw [State.completeSuccess_results, hn, Nat.add_comm]
  case dense =>
    rw [State.completeSuccess_results, hn] at hk
    rw [State.completeSuccess_dst, outputLandsFromAddressZero, if_pos (hl ▸ hk), hdense k hk]
  case keptCount => rw [State.completeSuccess_results, hpixels, hg.width, hg.height, Nat.cast_mul]

/-! ### DECODE as two commands -/

/-- Advancing SRC_OFF inside the window takes the bytes passed from those available (10_state.md R38). -/
theorem avail_srcOff_add {s : State} (h : 296 ≤ s.avail) :
    (s.srcOff + 296).toNat = s.srcOff.toNat + 296 ∧
      ({ s with srcOff := s.srcOff + 296 } : State).avail = s.avail - 296 := by
  have hlen := s.srcLen.isLt
  have hin := (lt_avail_iff s 295).mp (by omega)
  have hoff : (s.srcOff + 296).toNat = s.srcOff.toNat + 296 := BitVec.toNat_add_of_lt (by simp; omega)
  refine ⟨hoff, ?_⟩
  simp only [State.avail, hoff]
  split <;> split <;> omega

theorem u32_add (m n : Nat) : u32 (m + n) = u32 m + u32 n := BitVec.ofNat_add m n

/-- The results of a payload decode depend on the bytes consumed only in BYTES_CONSUMED. -/
theorem decodeResults_add (m n : Nat) (g : DecodeGeometry) (r : RowGeometry) :
    decodeResults n g r =
      { decodeResults (m + n) g r with bytesConsumed := (decodeResults (m + n) g r).bytesConsumed - u32 m } := by
  have hsub : u32 (m + n) - u32 m = u32 n := by rw [u32_add, add_sub_cancel_left]
  simp only [decodeResults, hsub]

/-- Settles O59: DECODE_HEADER leaves the header in the HRF, and DESTRIDE finds there and after the header bytes what
DECODE finds in its own image and at the same place. -/
theorem splitDecodeAgreesWithDecode : Obligations.SplitDecodeAgreesWithDecode := by
  intro s t hexec herr
  obtain ⟨c, ⟨f, g, raw, h296, hf, hg, ha, hk, hr, rfl⟩, rfl⟩ := commits_of_exec hexec herr
  obtain ⟨hoff, havail⟩ := avail_srcOff_add h296
  have hheader : Commits .decodeHeader s _ := ⟨f, h296, hf, rfl⟩
  refine ⟨_, _, exec_of_commits hheader, rfl, exec_of_commits ⟨g, raw, hg, ?avail, hk, ?bytes, rfl⟩, rfl, rfl, rfl,
    rfl, decodeResults_add 296 _ _ _⟩
  case avail => exact ha.trans havail.ge
  case bytes => exact hoff ▸ hr

end Machine
end Sys2Proof
end

section
/-! SUPPORT. The operands of a command: two states that agree on them take the same checks and reads, and one commits
what the other commits (30_encoding.md R86, 43_composite.md R174). -/

namespace Sys2Proof
namespace Machine

/-! ### How many bytes a command reads -/

theorem le_bytesRead_decode (s : State) : 296 ≤ bytesRead .decode s := by
  simp only [bytesRead]; split <;> omega

theorem bytesRead_decode {s : State} {slot : Fin 2} {f : List Byte} {g : DecodeGeometry}
    (hf : s.src.readBytes s.srcOff.toNat 296 = some f) (hg : DecodeGeometryOk slot (parseHeader f) g) :
    bytesRead .decode s = 296 + g.ds := by
  simp [bytesRead, hf, hg.dataSize]

theorem bytesRead_destride {s : State} {slot : Fin 2} {g : DecodeGeometry} (hg : DecodeGeometryOk slot s.hrf g) :
    bytesRead .destride s = g.ds := by
  simp [bytesRead, hg.dataSize]

/-- `n` is the product of the three HRF words. -/
theorem EncodeGeometryOk.toNat_encodeSize {h : Header} {g : EncodeGeometry} (hg : EncodeGeometryOk h g) :
    (encodeSize h).toNat = g.n := by
  rw [encodeSize, hg.width, hg.height, hg.planeCount, hg.size, ← Nat.cast_mul, ← Nat.cast_mul, Int.toNat_natCast]

/-- A command that commits has read no byte beyond those available (20_memory.md R78). -/
theorem Commits.bytesRead_le {i : Instr} {s : State} {c : Commit} (h : Commits i s c) : bytesRead i s ≤ s.avail := by
  cases i with
  | decodeHeader =>
    obtain ⟨f, ha, -⟩ := h
    exact ha
  | destride =>
    obtain ⟨g, raw, hg, ha, -⟩ := h
    exact (bytesRead_destride hg).trans_le ha
  | decode =>
    obtain ⟨f, g, raw, h296, hf, hg, ha, -⟩ := h
    rw [bytesRead_decode hf hg]
    omega
  | encodeHeader => exact Nat.zero_le _
  | restride | encode =>
    obtain ⟨g, dense, hg, ha, -⟩ := h
    exact hg.toNat_encodeSize.trans_le ha

/-! ### What depends on the header words that a command reads -/

/-- Two header images agree on the words with these numbers. -/
def Header.AgreeOn (l : List Nat) (h h' : Header) : Prop := ∀ k : Fin 74, k.val ∈ l → h'[k] = h[k]

/-- The encode geometry depends on PLANE_COUNT, DIMS[0] and DIMS[1], which every encode command reads. -/
theorem encodeGeometry_congr {i : Instr} {slot : Fin 2} {h h' : Header} (hi : encodes i)
    (hw : h.AgreeOn (headerWordsRead i slot) h') : encodeGeometry h' = encodeGeometry h := by
  have hread : ∀ k ∈ [4, 7, 8], k ∈ headerWordsRead i slot := by
    rcases hi with rfl | rfl | rfl <;> simp [headerWordsRead]
  have hplanes : h'.planeCount = h.planeCount := hw 4 (hread 4 (by decide))
  have hwidth : h'.dims 0 = h.dims 0 := hw 7 (hread 7 (by decide))
  have hheight : h'.dims 1 = h.dims 1 := hw 8 (hread 8 (by decide))
  simp only [encodeGeometry, hplanes, hwidth, hheight]

/-- Between PLANE_COUNT and DATA_SIZE the encoder writes every word anew (40_header_codec.md R115). -/
theorem encodeHeaderWord_of_written (pc dx dy n : Nat) {k : Nat} (old old' : Word) (hk : 4 ≤ k ∧ k ≤ 71) :
    encodeHeaderWord pc dx dy n k old' = encodeHeaderWord pc dx dy n k old := by
  unfold encodeHeaderWord
  repeat refine ite_congr rfl (fun _ => rfl) fun _ => ?_
  omega

theorem encodeHeaderImage_congr {h h' : Header} (hw : h.AgreeOn [0, 1, 2, 3, 4, 7, 8, 72, 73] h') (pc dx dy n : Nat) :
    encodeHeaderImage h' pc dx dy n = encodeHeaderImage h pc dx dy n := by
  refine Vector.ext fun k hk => ?_
  rw [getElem_encodeHeaderImage, getElem_encodeHeaderImage]
  by_cases hwritten : 4 ≤ k ∧ k ≤ 71
  case pos => exact encodeHeaderWord_of_written pc dx dy n _ _ hwritten
  case neg =>
    have hword : h'[k] = h[k] := hw ⟨k, hk⟩ (by simp; omega)
    rw [hword]

theorem validateDecodeGeometry_congr {slot : Fin 2} {h h' : Header}
    (hw : h.AgreeOn [4, 5, 6, 7, 8, 39 + slot.val, 71] h') :
    validateDecodeGeometry slot h' = validateDecodeGeometry slot h := by
  have hplanes : h'.planeCount = h.planeCount := hw 4 (by simp)
  have hsample : h'.sampleType = h.sampleType := hw 5 (by simp)
  have hcount : h'.dimCount = h.dimCount := hw 6 (by simp)
  have hwidth : h'.dims 0 = h.dims 0 := hw 7 (by simp)
  have hheight : h'.dims 1 = h.dims 1 := hw 8 (by simp)
  have hstride : h'.rowStride slot = h.rowStride slot := hw ⟨39 + slot.val, by omega⟩ (by simp)
  have hsize : h'.dataSize = h.dataSize := hw 71 (by simp)
  simp only [validateDecodeGeometry, hplanes, hsample, hcount, hwidth, hheight, hstride, hsize]

/-! ### What a command commits -/

/-- `s'` has the parameters, the HRF words and, at its own SRC_OFF, the SRC bytes that command `i` reads in `s`: what
a commit depends on, wherever SRC_LEN lies beyond them. -/
structure SameReads (i : Instr) (s s' : State) : Prop where
  caps : s'.caps = s.caps
  header : s.hrf.AgreeOn (headerWordsRead i s.caps.rowStrideSlot) s'.hrf
  source : ∀ k, k < bytesRead i s → s'.src.read (s'.srcOff.toNat + k) = s.src.read (s.srcOff.toNat + k)

theorem SameReads.readBytes {i : Instr} {s s' : State} (h : SameReads i s s') (d : Nat) {n : Nat}
    (hn : d + n ≤ bytesRead i s) :
    s'.src.readBytes (s'.srcOff.toNat + d) n = s.src.readBytes (s.srcOff.toNat + d) n :=
  Memory.readBytes_congr fun k hk => by
    rw [Nat.add_assoc, Nat.add_assoc, h.source (d + k) (by omega)]

theorem SameReads.encodeGeometryOk {i : Instr} {s s' : State} {g : EncodeGeometry} (h : SameReads i s s')
    (hi : encodes i) (hg : EncodeGeometryOk s.hrf g) : EncodeGeometryOk s'.hrf g := by
  rw [← encodeGeometry_eq_ok_iff] at hg ⊢
  rw [encodeGeometry_congr hi h.header, hg]

theorem SameReads.decodeGeometryOk {s s' : State} {g : DecodeGeometry} (h : SameReads .destride s s')
    (hg : DecodeGeometryOk s.caps.rowStrideSlot s.hrf g) : DecodeGeometryOk s'.caps.rowStrideSlot s'.hrf g := by
  rw [← validateDecodeGeometry_eq_ok_iff] at hg ⊢
  rw [h.caps, validateDecodeGeometry_congr h.header, hg]

/-- A state with the same operands commits the same, if its window covers them. -/
theorem Commits.congr {i : Instr} {s s' : State} {c : Commit} (hc : Commits i s c) (h : SameReads i s s')
    (ha : bytesRead i s ≤ s'.avail) : Commits i s' c := by
  cases i with
  | decodeHeader =>
    obtain ⟨f, -, hf, rfl⟩ := hc
    exact ⟨f, ha, (h.readBytes 0 (by rfl)).trans hf, rfl⟩
  | destride =>
    obtain ⟨g, raw, hg, -, hd, hr, rfl⟩ := hc
    have hread := bytesRead_destride hg
    exact ⟨g, raw, h.decodeGeometryOk hg, hread ▸ ha, h.caps ▸ hd, (h.readBytes 0 (by omega)).trans hr, rfl⟩
  | decode =>
    obtain ⟨f, g, raw, -, hf, hg, -, hd, hr, rfl⟩ := hc
    have hread := bytesRead_decode hf hg
    exact ⟨f, g, raw, by omega, (h.readBytes 0 (by omega)).trans hf, h.caps ▸ hg, by omega, h.caps ▸ hd,
      (h.readBytes 296 (by omega)).trans hr, rfl⟩
  | encodeHeader =>
    obtain ⟨g, hg, hd, rfl⟩ := hc
    exact ⟨g, h.encodeGeometryOk (.inl rfl) hg, h.caps ▸ hd, by rw [encodeHeaderImage_congr h.header]⟩
  | restride =>
    obtain ⟨g, dense, hg, -, hd, hr, rfl⟩ := hc
    have hread : bytesRead .restride s = g.n := hg.toNat_encodeSize
    exact ⟨g, dense, h.encodeGeometryOk (.inr (.inl rfl)) hg, hread ▸ ha, h.caps ▸ hd,
      (h.readBytes 0 (by omega)).trans hr, rfl⟩
  | encode =>
    obtain ⟨g, dense, hg, -, hd, hr, rfl⟩ := hc
    have hread : bytesRead .encode s = g.n := hg.toNat_encodeSize
    exact ⟨g, dense, h.encodeGeometryOk (.inr (.inr rfl)) hg, hread ▸ ha, h.caps ▸ hd,
      (h.readBytes 0 (by omega)).trans hr, by rw [encodeHeaderImage_congr h.header]⟩

end Machine
end Sys2Proof
end

section
/-! PROOF. What a command's outcome depends on: the frame after a decoded one is not read, and no command depends on
more than its operands (43_composite.md R173, R174). -/

namespace Sys2Proof
namespace Machine

/-! ### The frame after a decoded one -/

/-- Settles O58: DECODE consumes just the bytes it reads, so a state that holds them in its window commits the same. -/
theorem chainedFrameStartsAfterTheConsumedBytes : Obligations.ChainedFrameStartsAfterTheConsumedBytes := by
  intro s t m len hexec herr hlen hm
  obtain ⟨c, hc, rfl⟩ := commits_of_exec hexec herr
  obtain ⟨f, g, raw, h296, hf, hg, ha, -, -, rfl⟩ := id hc
  have hconsumed : (u32 (296 + g.ds)).toNat = 296 + g.ds :=
    toNat_u32 ((show 296 + g.ds ≤ s.avail by omega).trans_lt (avail_lt s))
  have hread : bytesRead .decode s = 296 + g.ds := bytesRead_decode hf hg
  rw [State.completeSuccess_results, decodeResults, hconsumed] at hlen hm ⊢
  have hsame : SameReads .decode s { s with src := m, srcLen := len } :=
    ⟨rfl, fun k hk => absurd hk List.not_mem_nil, fun k hk => hm k (hread ▸ hk)⟩
  refine ⟨?_, rfl, exec_of_commits (hc.congr hsame (le_avail_of_covered (hread ▸ hlen)))⟩
  rw [State.completeSuccess_hrf, Option.getD_some, hg.dataSize, Nat.cast_add, Nat.cast_ofNat]

/-! ### Non-interference -/

theorem SameOperands.avail_eq {i : Instr} {s s' : State} (h : SameOperands i s s') (hi : i ≠ .encodeHeader) :
    s'.avail = s.avail := by
  rw [State.avail, State.avail, h.srcOff hi, h.srcLen hi]

/-- A command that commits finds all it reads inside the window, where the operands agree. -/
theorem SameOperands.commits {i : Instr} {s s' : State} {c : Commit} (h : SameOperands i s s') (hc : Commits i s c) :
    Commits i s' c := by
  by_cases hi : i = .encodeHeader
  case pos =>
    subst hi
    exact hc.congr ⟨h.caps, h.header, fun k hk => absurd hk (Nat.not_lt_zero k)⟩ (Nat.zero_le _)
  case neg =>
    have hle := hc.bytesRead_le
    refine hc.congr ⟨h.caps, h.header, fun k hk => ?_⟩ (hle.trans (h.avail_eq hi).ge)
    rw [h.srcOff hi]
    exact h.source _ (Nat.le_add_right _ _) (by omega) ((lt_avail_iff s k).mp (by omega))

/-- An available part of what the command reads. -/
theorem SameOperands.memRead_eq {i : Instr} {s s' : State} (h : SameOperands i s s') (hi : i ≠ .encodeHeader) (d : Nat)
    {n : Nat} (hn : d + n ≤ bytesRead i s) (ha : d + n ≤ s.avail) :
    s'.memRead (s'.srcOff.toNat + d) n = s.memRead (s.srcOff.toNat + d) n := by
  have hbytes : s'.src.readBytes (s.srcOff.toNat + d) n = s.src.readBytes (s.srcOff.toNat + d) n := by
    refine Memory.readBytes_congr fun k hk => h.source _ (by omega) (by omega) ?_
    have hin := (lt_avail_iff s (d + k)).mp (by omega)
    omega
  rw [State.memRead, State.memRead, h.srcOff hi, hbytes]

/-- Two sequences are one computation when their first parts are, and their second parts after every value of it. -/
theorem Cmd.bind_congr {α β : Type} {x x' : Cmd α} {f f' : α → Cmd β} (hx : x' = x)
    (hf : ∀ a, x = .ok a → f' a = f a) : (x' >>= f') = (x >>= f) := by
  subst hx
  cases x' with
  | ok a => exact hf a rfl
  | error e => rfl

/-- The same check, and after it the same computation where it passes. -/
theorem raiseIf_bind_congr {β : Type} {p p' : Prop} [Decidable p] [Decidable p'] {e : ErrorKind} {f f' : Unit → Cmd β}
    (hp : p' ↔ p) (hf : ¬ p → f' () = f ()) : (raiseIf p' e >>= f') = (raiseIf p e >>= f) :=
  Cmd.bind_congr (by simp only [raiseIf, hp]) fun u hu => hf ((raiseIf_eq_ok_iff e u).mp hu)

/-- The checks and the read that DESTRIDE, RESTRIDE and ENCODE share, after their geometry. -/
theorem SameOperands.payload_bind_congr {i : Instr} {s s' : State} (h : SameOperands i s s') (hi : i ≠ .encodeHeader)
    {n : Nat} (hn : bytesRead i s = n) (written : Nat) {f f' : List Byte → Cmd Commit} (hf : ∀ bs, f' bs = f bs) :
    (do raiseIf (s'.avail < n) .truncatedPayload
        raiseIf (written > s'.caps.dstSize.toNat) .dstOverflow
        f' (← s'.memRead s'.srcOff.toNat n)) =
    (do raiseIf (s.avail < n) .truncatedPayload
        raiseIf (written > s.caps.dstSize.toNat) .dstOverflow
        f (← s.memRead s.srcOff.toNat n)) := by
  rw [h.avail_eq hi, h.caps]
  refine raiseIf_bind_congr Iff.rfl fun ha => raiseIf_bind_congr Iff.rfl fun _ => ?_
  exact Cmd.bind_congr (h.memRead_eq hi 0 (by omega) (by omega)) fun bs _ => hf bs

/-- Two states with the same operands end one and the same computation, each on itself (43_composite.md R174). -/
theorem SameOperands.exec_eq_finish {i : Instr} {s s' : State} (h : SameOperands i s s') :
    ∃ x : Cmd Commit, exec i s = s.finish x ∧ exec i s' = s'.finish x := by
  cases i with
  | decodeHeader =>
    refine ⟨_, rfl, congrArg s'.finish ?_⟩
    refine raiseIf_bind_congr (by rw [h.avail_eq nofun]) fun ha => ?_
    exact Cmd.bind_congr (h.memRead_eq nofun 0 (by rfl) (Nat.not_lt.mp ha)) fun f _ => rfl
  | destride =>
    have hv := validateDecodeGeometry_congr h.header
    refine ⟨_, rfl, congrArg s'.finish (Cmd.bind_congr (by rw [h.caps, hv]) fun g hg => ?_)⟩
    have hread := bytesRead_destride ((validateDecodeGeometry_eq_ok_iff ..).mp hg)
    exact h.payload_bind_congr nofun hread _ fun raw => rfl
  | decode =>
    refine ⟨_, rfl, congrArg s'.finish ?_⟩
    refine raiseIf_bind_congr (by rw [h.avail_eq nofun]) fun h296 => ?_
    refine Cmd.bind_congr (h.memRead_eq nofun 0 (le_bytesRead_decode s) (Nat.not_lt.mp h296)) fun f hf => ?_
    refine Cmd.bind_congr (by rw [h.caps]) fun g hg => ?_
    have hread := bytesRead_decode ((memRead_eq_ok_iff ..).mp hf) ((validateDecodeGeometry_eq_ok_iff ..).mp hg)
    refine raiseIf_bind_congr (by rw [h.avail_eq nofun]) fun ha => raiseIf_bind_congr (by rw [h.caps]) fun _ => ?_
    have havail : 296 + g.ds ≤ s.avail := by simp only [hdrLen_eq] at h296 ha; omega
    exact Cmd.bind_congr (h.memRead_eq nofun 296 hread.ge havail) fun raw _ => rfl
  | encodeHeader =>
    refine ⟨_, rfl, congrArg s'.finish (Cmd.bind_congr (encodeGeometry_congr (.inl rfl) h.header) fun g _ => ?_)⟩
    refine raiseIf_bind_congr (by rw [h.caps]) fun _ => ?_
    simp only [encodeHeaderImage_congr h.header]
  | restride =>
    have hgeometry := encodeGeometry_congr (.inr (.inl rfl)) h.header
    refine ⟨_, rfl, congrArg s'.finish (Cmd.bind_congr hgeometry fun g hg => ?_)⟩
    have hread := ((encodeGeometry_eq_ok_iff ..).mp hg).toNat_encodeSize
    exact h.payload_bind_congr nofun hread _ fun dense => rfl
  | encode =>
    have hgeometry := encodeGeometry_congr (.inr (.inr rfl)) h.header
    refine ⟨_, rfl, congrArg s'.finish (Cmd.bind_congr hgeometry fun g hg => ?_)⟩
    have hread := ((encodeGeometry_eq_ok_iff ..).mp hg).toNat_encodeSize
    exact h.payload_bind_congr nofun hread _ fun dense => by simp only [encodeHeaderImage_congr h.header]

/-- The commands that do not write a header image are DESTRIDE and RESTRIDE (10_state.md R28). -/
theorem Commits.exists_header {i : Instr} {s : State} {c : Commit} (hc : Commits i s c) (hd : i ≠ .destride)
    (hr : i ≠ .restride) : ∃ image, c.header = some image := by
  cases i with
  | destride => exact absurd rfl hd
  | restride => exact absurd rfl hr
  | decodeHeader => obtain ⟨f, -, -, rfl⟩ := hc; exact ⟨_, rfl⟩
  | decode => obtain ⟨f, g, raw, -, -, -, -, -, -, rfl⟩ := hc; exact ⟨_, rfl⟩
  | encodeHeader => obtain ⟨g, -, -, rfl⟩ := hc; exact ⟨_, rfl⟩
  | encode => obtain ⟨g, dense, -, -, -, -, rfl⟩ := hc; exact ⟨_, rfl⟩

/-- Settles O25. -/
theorem outcomeDependsOnlyOnOperands : Obligations.OutcomeDependsOnlyOnOperands := by
  intro i s s' h
  obtain ⟨x, hs, hs'⟩ := h.exec_eq_finish
  refine ⟨fun r hr => ?fault, fun t ht => ?next⟩
  case fault =>
    have hx : x = .error (.fault r) := (finish_eq_fault_iff s x r).mp (hs.symm.trans hr)
    rw [hs', hx, finish_fault]
  case next =>
    rcases (finish_eq_next_iff s t x).mp (hs.symm.trans ht) with ⟨k, -, rfl⟩ | ⟨e, rfl, rfl⟩
    · obtain ⟨c, hc, hk⟩ := commits_of_exec ht rfl
      rw [hk]
      refine ⟨_, exec_of_commits (h.commits hc), rfl, rfl, rfl, rfl, rfl, fun _ => ⟨fun hd hr => ?_, fun a ha => ?_⟩⟩
      · obtain ⟨image, himage⟩ := hc.exists_header hd hr
        simp [himage]
      · obtain ⟨hout, -⟩ := hc.outLen
        simp only [State.completeSuccess_results, hout] at ha
        simp only [State.completeSuccess_dst, outputLandsFromAddressZero _ _ _, if_pos ha]
    · exact ⟨_, hs', rfl, rfl, rfl, rfl, rfl, nofun⟩

end Machine
end Sys2Proof
end

section
/-! PROOF. Accept and completion: what the accept of a word, an illegal word, an error completion and a commit write,
and what they leave as it was (60_exceptions.md R200, R205, R208 to R211). -/

namespace Sys2Proof
namespace Machine

/-! ### Accept -/

/-- Settles O36. -/
theorem acceptStartsTheCommand : Obligations.AcceptStartsTheCommand :=
  fun _ w hb => hostTurn_regWrite_idle w hb (regAccess_offset .cmd)

/-- A placed word of the full width is accepted as it is. -/
theorem withFetchWord_toNat (s : State) (w : Word) :
    s.withFetchWord 32 w.toNat = (s.accept w).withInputs (.engineTurn :: s.inputs) := by
  rw [State.withFetchWord, Nat.mod_eq_of_lt w.isLt, BitVec.ofNat_toNat, BitVec.setWidth_eq]
  rfl

/-- Settles O5: the engine's turn is the next input, and it finds the word in PENDING. -/
theorem placedCommandIsExecutedNext : Obligations.PlacedCommandIsExecutedNext := by
  intro s i
  rw [withFetchWord_toNat, step_of_engineTurn rfl]
  exact engineTurn_of_command (s := s.accept (encode i)) rfl (decode_encode i)

/-! ### Words that are no command -/

/-- A pending word that the encoder writes for no command completes with ILLEGAL_COMMAND (60_exceptions.md R205). -/
theorem engineTurn_of_no_command {s : State} (hb : s.status.busy = true) (h : ∀ i, s.pending ≠ encode i) :
    engineTurn s = .next (s.completeError .illegalCommand) := by
  cases hd : decode s.pending with
  | ok i => exact absurd (eq_encode_of_decode hd) (h i)
  | error e => exact engineTurn_of_illegal hb hd

/-- Settles O3. -/
theorem illegalWordCompletesWithCode5 : Obligations.IllegalWordCompletesWithCode5 := by
  intro s hb hi h1 h2 h3 h4 h5 h6
  have hno : ∀ i, s.pending ≠ encode i
    | .decodeHeader => h1
    | .destride => h2
    | .decode => h3
    | .encodeHeader => h4
    | .restride => h5
    | .encode => h6
  exact (step_of_no_input hi).trans (engineTurn_of_no_command hb hno)

/-! ### Error completions -/

/-- Settles O20: neither an idle turn nor a commit leaves a busy engine with ERR = 1. -/
theorem errorCompletionChangesNothingElse : Obligations.ErrorCompletionChangesNothingElse := by
  intro s t hb h herr
  rcases engineTurn_effect h with ⟨hidle, -⟩ | ⟨-, i, c, -, rfl⟩ | ⟨-, e, rfl⟩
  · simp [hb] at hidle
  · cases herr
  · exact ⟨e, rfl⟩

/-- Settles O21: a commit leaves code 0, and an error one of the codes that the command raises. -/
theorem commandsReportOnlyTheirCodes : Obligations.CommandsReportOnlyTheirCodes := by
  intro i s t h
  rcases exec_cases h with ⟨c, -, rfl⟩ | ⟨e, he, rfl⟩
  · rw [State.completeSuccess_errcode]
    cases i <;> exact List.mem_cons_self
  · rw [State.completeError_errcode]
    cases i with
    | decodeHeader =>
      obtain rfl : e = .truncatedHeader := he
      decide
    | destride => obtain rfl | rfl | rfl | rfl := he <;> decide
    | decode => obtain rfl | rfl | rfl | rfl | rfl := he <;> decide
    | encodeHeader => obtain rfl | rfl := he <;> decide
    | restride | encode => obtain rfl | rfl | rfl := he <;> decide

/-! ### The frame of a command -/

/-- DESTRIDE and RESTRIDE commit no header image (10_state.md R28). -/
theorem Commits.header_eq_none {i : Instr} {s : State} {c : Commit} (hc : Commits i s c)
    (hi : i = .destride ∨ i = .restride) : c.header = none := by
  rcases hi with rfl | rfl
  · obtain ⟨g, raw, -, -, -, -, rfl⟩ := hc
    rfl
  · obtain ⟨g, dense, -, -, -, -, rfl⟩ := hc
    rfl

/-- DECODE_HEADER writes no byte of DST (40_header_codec.md R113). -/
theorem Commits.out_eq_nil {s : State} {c : Commit} (hc : Commits .decodeHeader s c) : c.out = [] := by
  obtain ⟨f, -, -, rfl⟩ := hc
  rfl

/-- A commit leaves DST as it was from the new OUT_LEN on (20_memory.md R62). -/
theorem Commits.read_dst_of_outLen_le {i : Instr} {s : State} {c : Commit} {a : Nat} (hc : Commits i s c)
    (ha : c.results.outLen.toNat ≤ a) : (s.completeSuccess c).dst.read a = s.dst.read a := by
  obtain ⟨hout, -⟩ := hc.outLen
  rw [State.completeSuccess_dst, outputLandsFromAddressZero, if_neg (Nat.not_lt.mpr (hout ▸ ha))]

/-- Settles O22. -/
theorem commandFrame : Obligations.CommandFrame := by
  intro i s t h
  rcases exec_cases h with ⟨c, hc, rfl⟩ | ⟨e, -, rfl⟩
  case inl =>
    refine ⟨rfl, rfl, rfl, rfl, rfl, rfl, rfl, rfl, rfl, rfl, rfl, fun hi => ?header, fun hi => ?dst,
      fun a ha => hc.read_dst_of_outLen_le ha⟩
    case header => simp [hc.header_eq_none hi]
    case dst =>
      subst hi
      rw [State.completeSuccess_dst, hc.out_eq_nil, Memory.writeBytes]
  case inr =>
    exact ⟨rfl, rfl, rfl, rfl, rfl, rfl, rfl, rfl, rfl, rfl, rfl, fun _ => ⟨rfl, rfl⟩, fun _ => rfl, fun _ _ => rfl⟩

end Machine
end Sys2Proof
end

section
/-! PROOF. The order of the error conditions: each command checks its conditions in the order of their priority, so it
reports the first that holds, and without one it commits or meets an unwritten byte (60_exceptions.md R201 to R207). -/

namespace Sys2Proof
namespace Machine

/-! ### The priority order -/

/-- No error condition of `i` with a priority number below `n` holds in `s`. -/
def NoErrorBefore (i : Instr) (s : State) (n : Nat) : Prop := ∀ e : ErrorKind, e.priority < n → ¬ ErrorCondition i s e

/-- `e` is the error condition of `i` in `s` that R207 has reported. -/
def FirstErrorCondition (i : Instr) (s : State) (e : ErrorKind) : Prop :=
  ErrorCondition i s e ∧ NoErrorBefore i s e.priority

/-- The priority order is total: no two kinds share a place in it (60_exceptions.md R207). -/
theorem priority_injective {e e' : ErrorKind} (h : e.priority = e'.priority) : e = e' := by
  cases e <;> cases e' <;> first | rfl | cases h

theorem priority_le_six (e : ErrorKind) : e.priority ≤ 6 := by cases e <;> decide

/-- An accepted command word is never illegal (60_exceptions.md R205). -/
theorem noErrorBefore_two (i : Instr) (s : State) : NoErrorBefore i s 2 := by
  intro e he
  obtain rfl : e = .illegalCommand := by cases e <;> first | rfl | exact absurd he (by decide)
  exact not_false

/-- After a condition that does not hold comes the next one. -/
theorem NoErrorBefore.succ {i : Instr} {s : State} {e : ErrorKind} (h : NoErrorBefore i s e.priority)
    (he : ¬ ErrorCondition i s e) : NoErrorBefore i s (e.priority + 1) := by
  intro e' hlt
  rcases Nat.lt_succ_iff_lt_or_eq.mp hlt with hlt | heq
  · exact h e' hlt
  · exact priority_injective heq ▸ he

/-- After the sixth there is none. -/
theorem NoErrorBefore.all {i : Instr} {s : State} (h : NoErrorBefore i s 7) (e : ErrorKind) : ¬ ErrorCondition i s e :=
  h e (Nat.lt_succ_of_le (priority_le_six e))

/-- At most one condition is the first. -/
theorem FirstErrorCondition.unique {i : Instr} {s : State} {e e' : ErrorKind} (h : FirstErrorCondition i s e)
    (h' : FirstErrorCondition i s e') : e = e' := by
  obtain ⟨he, hbefore⟩ := h
  obtain ⟨he', hbefore'⟩ := h'
  rcases Nat.lt_trichotomy e.priority e'.priority with hlt | heq | hlt
  · exact absurd he (hbefore' e hlt)
  · exact priority_injective heq
  · exact absurd he' (hbefore e' hlt)

/-! ### What the conditions are for one command -/

/-- A decode works from one header image. -/
theorem decodesHeader_iff {i : Instr} {s : State} {h : Header} (hd : decodesHeader i s h) (h' : Header) :
    decodesHeader i s h' ↔ h' = h := by
  refine ⟨fun hd' => ?_, fun heq => heq ▸ hd⟩
  rcases hd with ⟨rfl, rfl⟩ | ⟨rfl, f, hf, rfl⟩
  · simpa [decodesHeader] using hd'
  · simpa [decodesHeader, hf] using hd'

/-- No command decodes and encodes. -/
theorem not_encodes_of_decodesHeader {i : Instr} {s : State} {h : Header} (hd : decodesHeader i s h) : ¬ encodes i := by
  rcases hd with ⟨rfl, -⟩ | ⟨rfl, -⟩ <;> simp [encodes]

section
variable {i : Instr} {s : State} {h : Header} (hd : decodesHeader i s h)
include hd

theorem unsupportedSampleType_iff_of_decodes :
    ErrorCondition i s .unsupportedSampleType ↔ s32 h.sampleType ≠ 0 := by
  simp [ErrorCondition, decodesHeader_iff hd]

theorem invalidGeometry_iff_of_decodes :
    ErrorCondition i s .invalidGeometry ↔ DecodeGeometryBad s.caps.rowStrideSlot h := by
  simp [ErrorCondition, decodesHeader_iff hd, not_encodes_of_decodesHeader hd]

theorem truncatedPayload_iff_of_decodes :
    ErrorCondition i s .truncatedPayload ↔ payloadAvail i s < s32 h.dataSize := by
  have hne := not_encodes_of_decodesHeader hd
  have : ¬ (i = .restride ∨ i = .encode) := fun hi => hne (.inr hi)
  simp [ErrorCondition, decodesHeader_iff hd, this]

theorem dstOverflow_iff_of_decodes {g : DecodeGeometry} (hg : DecodeGeometryOk s.caps.rowStrideSlot h g) :
    ErrorCondition i s .dstOverflow ↔ s.caps.dstSize.toNat < keptBytes g := by
  have hne := not_encodes_of_decodesHeader hd
  simp only [encodes, not_or] at hne
  obtain ⟨hh, hr, he⟩ := hne
  have hgeometry : ∀ g', DecodeGeometryOk s.caps.rowStrideSlot h g' ↔ g' = g :=
    fun g' => ⟨fun hg' => hg'.unique hg, fun heq => heq ▸ hg⟩
  simp [ErrorCondition, decodesHeader_iff hd, hgeometry, hh, hr, he]

end

section
variable {i : Instr} {s : State} (hi : encodes i)
include hi

theorem not_decodesHeader_of_encodes (h : Header) : ¬ decodesHeader i s h :=
  fun hd => not_encodes_of_decodesHeader hd hi

/-- An encode checks its geometry first (40_header_codec.md R114). -/
theorem noErrorBefore_geometry_of_encodes : NoErrorBefore i s 4 := by
  have hheader : ¬ ErrorCondition i s .truncatedHeader := by
    rcases hi with rfl | rfl | rfl <;> simp [ErrorCondition]
  have hsample : ¬ ErrorCondition i s .unsupportedSampleType := by
    simp [ErrorCondition, not_decodesHeader_of_encodes hi]
  exact ((noErrorBefore_two i s).succ (e := .truncatedHeader) hheader).succ (e := .unsupportedSampleType) hsample

theorem invalidGeometry_iff_of_encodes : ErrorCondition i s .invalidGeometry ↔ EncodeGeometryBad s.hrf := by
  simp [ErrorCondition, not_decodesHeader_of_encodes hi, hi]

end

/-- `n` is the exact product of the three HRF words (40_header_codec.md R114). -/
theorem EncodeGeometryOk.encodeSize_eq {h : Header} {g : EncodeGeometry} (hg : EncodeGeometryOk h g) :
    encodeSize h = g.n := by
  rw [encodeSize, hg.width, hg.height, hg.planeCount, hg.size, ← Nat.cast_mul, ← Nat.cast_mul]

/-- RESTRIDE and ENCODE need the dense bytes (60_exceptions.md R203). -/
theorem truncatedPayload_iff_of_encodes {i : Instr} {s : State} {g : EncodeGeometry} (hg : EncodeGeometryOk s.hrf g)
    (hi : i = .restride ∨ i = .encode) : ErrorCondition i s .truncatedPayload ↔ s.avail < g.n := by
  simp [ErrorCondition, not_decodesHeader_of_encodes (.inr hi), hi, hg.encodeSize_eq]

theorem not_truncatedPayload_encodeHeader (s : State) : ¬ ErrorCondition .encodeHeader s .truncatedPayload := by
  simp [ErrorCondition, decodesHeader]

theorem dstOverflow_encodeHeader_iff (s : State) :
    ErrorCondition .encodeHeader s .dstOverflow ↔ s.caps.dstSize.toNat < 296 := by
  simp [ErrorCondition, decodesHeader]

theorem dstOverflow_restride_iff {s : State} {g : EncodeGeometry} (hg : EncodeGeometryOk s.hrf g) :
    ErrorCondition .restride s .dstOverflow ↔ s.caps.dstSize.toNat < g.n := by
  simp [ErrorCondition, decodesHeader, hg.encodeSize_eq]

theorem dstOverflow_encode_iff {s : State} {g : EncodeGeometry} (hg : EncodeGeometryOk s.hrf g) :
    ErrorCondition .encode s .dstOverflow ↔ s.caps.dstSize.toNat < 296 + g.n := by
  have hcast : ((s.caps.dstSize.toNat : Int) < 296 + g.n) ↔ s.caps.dstSize.toNat < 296 + g.n := by omega
  simp [ErrorCondition, decodesHeader, hg.encodeSize_eq, hcast]

/-- DECODE_HEADER has one condition (40_header_codec.md R113). -/
theorem errorCondition_decodeHeader_iff (s : State) (e : ErrorKind) :
    ErrorCondition .decodeHeader s e ↔ e = .truncatedHeader ∧ s.avail < 296 := by
  cases e <;> simp [ErrorCondition, decodesHeader, encodes]

/-- A DECODE whose header is available and not all written meets no error condition: the rest of its conditions speak
of a header that it did not read. -/
theorem not_errorCondition_decode_of_unwritten {s : State} (ha : ¬ s.avail < 296)
    (hf : s.src.readBytes s.srcOff.toNat 296 = none) (e : ErrorKind) : ¬ ErrorCondition .decode s e := by
  cases e <;> simp [ErrorCondition, decodesHeader, encodes, ha, hf]

/-! ### A computation that reports the first condition -/

/-- The computation ends as R207 says: it raises the first error condition, and where it raises none, none holds. -/
inductive Cmd.ReportsFirst (i : Instr) (s : State) : Cmd Commit → Prop where
  | raised {e : ErrorKind} (he : FirstErrorCondition i s e) : Cmd.ReportsFirst i s (.error (.raise e))
  | committed (c : Commit) (hnone : ∀ e, ¬ ErrorCondition i s e) : Cmd.ReportsFirst i s (.ok c)
  | faulted (r : Fault) (hnone : ∀ e, ¬ ErrorCondition i s e) : Cmd.ReportsFirst i s (.error (.fault r))

/-- A check of the next condition in the order. -/
theorem reportsFirst_raiseIf_bind {i : Instr} {s : State} {p : Prop} [Decidable p] {e : ErrorKind}
    {f : Unit → Cmd Commit} (hp : ErrorCondition i s e ↔ p) (hbefore : NoErrorBefore i s e.priority)
    (hf : ¬ p → NoErrorBefore i s (e.priority + 1) → (f ()).ReportsFirst i s) :
    (raiseIf p e >>= f).ReportsFirst i s := by
  by_cases h : p
  · rw [raiseIf_pos h]
    exact .raised ⟨hp.mpr h, hbefore⟩
  · rw [raiseIf_neg h]
    exact hf h (hbefore.succ (hp.not.mpr h))

/-- The read and the commit at the end of a command. -/
theorem reportsFirst_memRead_bind {i : Instr} {s : State} {a n : Nat} {c : List Byte → Commit}
    (hnone : ∀ e, ¬ ErrorCondition i s e) : (s.memRead a n >>= fun bs => .ok (c bs)).ReportsFirst i s := by
  cases hr : s.memRead a n with
  | ok bs => exact .committed _ hnone
  | error x =>
    obtain ⟨-, rfl⟩ := (memRead_eq_error_iff ..).mp hr
    exact .faulted _ hnone

/-- The checks of the payload and of the room in DST, and after them the read and the commit. -/
theorem reportsFirst_payload {i : Instr} {s : State} {p q : Prop} [Decidable p] [Decidable q] {a n : Nat}
    {c : List Byte → Commit} (hp : ErrorCondition i s .truncatedPayload ↔ p) (hq : ErrorCondition i s .dstOverflow ↔ q)
    (hbefore : NoErrorBefore i s 5) :
    Cmd.ReportsFirst i s (do
      raiseIf p .truncatedPayload
      raiseIf q .dstOverflow
      let bs ← s.memRead a n
      return c bs) :=
  reportsFirst_raiseIf_bind hp hbefore fun _ hbefore => reportsFirst_raiseIf_bind hq hbefore fun _ hbefore =>
    reportsFirst_memRead_bind hbefore.all

/-- ValidateDecodeGeometry checks the sample type and then the geometry (41_payload_decode.md R130). -/
theorem reportsFirst_decodeGeometry_bind {i : Instr} {s : State} {h : Header} {f : DecodeGeometry → Cmd Commit}
    (hd : decodesHeader i s h) (hbefore : NoErrorBefore i s 3)
    (hf : ∀ g, DecodeGeometryOk s.caps.rowStrideSlot h g → NoErrorBefore i s 5 → (f g).ReportsFirst i s) :
    (validateDecodeGeometry s.caps.rowStrideSlot h >>= f).ReportsFirst i s := by
  have hsample := unsupportedSampleType_iff_of_decodes hd
  have hgeometry := invalidGeometry_iff_of_decodes hd
  have hfirst := validateDecodeGeometry_eq_error_iff s.caps.rowStrideSlot h
  cases hv : validateDecodeGeometry s.caps.rowStrideSlot h with
  | error x =>
    rcases (hfirst x).mp hv with ⟨hne, rfl⟩ | ⟨hz, hbad, rfl⟩
    · exact .raised ⟨hsample.mpr hne, hbefore⟩
    · exact .raised ⟨hgeometry.mpr hbad, hbefore.succ (e := .unsupportedSampleType) (by simpa [hsample] using hz)⟩
  | ok g =>
    have hg := (validateDecodeGeometry_eq_ok_iff ..).mp hv
    have hbad : ¬ DecodeGeometryBad s.caps.rowStrideSlot h := fun hbad =>
      absurd ((hfirst (.raise .invalidGeometry)).mpr (.inr ⟨hg.sampleType, hbad, rfl⟩)) (by simp [hv])
    exact hf g hg ((hbefore.succ (e := .unsupportedSampleType) (by simpa [hsample] using hg.sampleType)).succ
      (e := .invalidGeometry) (hgeometry.not.mpr hbad))

/-- EncodeGeometry checks the geometry alone (40_header_codec.md R114). -/
theorem reportsFirst_encodeGeometry_bind {i : Instr} {s : State} {f : EncodeGeometry → Cmd Commit} (hi : encodes i)
    (hf : ∀ g, EncodeGeometryOk s.hrf g → NoErrorBefore i s 5 → (f g).ReportsFirst i s) :
    (encodeGeometry s.hrf >>= f).ReportsFirst i s := by
  have hbefore := noErrorBefore_geometry_of_encodes (s := s) hi
  have hgeometry := invalidGeometry_iff_of_encodes (s := s) hi
  have hfirst := encodeGeometry_eq_error_iff s.hrf
  cases hv : encodeGeometry s.hrf with
  | error x =>
    obtain ⟨hbad, rfl⟩ := (hfirst x).mp hv
    exact .raised ⟨hgeometry.mpr hbad, hbefore⟩
  | ok g =>
    have hbad : ¬ EncodeGeometryBad s.hrf := fun hbad =>
      absurd ((hfirst (.raise .invalidGeometry)).mpr ⟨hbad, rfl⟩) (by simp [hv])
    exact hf g ((encodeGeometry_eq_ok_iff ..).mp hv) (hbefore.succ (e := .invalidGeometry) (hgeometry.not.mpr hbad))

/-! ### Every command reports its first condition -/

/-- The six commands check their conditions in the order of R207. -/
theorem exec_reportsFirst (i : Instr) (s : State) : ∃ x : Cmd Commit, exec i s = s.finish x ∧ x.ReportsFirst i s := by
  cases i with
  | decodeHeader =>
    refine ⟨_, rfl, reportsFirst_raiseIf_bind (by simp [errorCondition_decodeHeader_iff]) (noErrorBefore_two _ s) ?_⟩
    intro ha _
    exact reportsFirst_memRead_bind fun e he => ha ((errorCondition_decodeHeader_iff s e).mp he).2
  | destride =>
    have hd : decodesHeader .destride s s.hrf := .inl ⟨rfl, rfl⟩
    have hheader : ¬ ErrorCondition .destride s .truncatedHeader := by simp [ErrorCondition]
    have hbefore := (noErrorBefore_two .destride s).succ (e := .truncatedHeader) hheader
    refine ⟨_, rfl, reportsFirst_decodeGeometry_bind hd hbefore fun g hg hbefore => ?_⟩
    refine reportsFirst_payload ?_ (dstOverflow_iff_of_decodes hd hg) hbefore
    rw [truncatedPayload_iff_of_decodes hd, hg.dataSize]
    simp [payloadAvail]
  | decode =>
    refine ⟨_, rfl, reportsFirst_raiseIf_bind (by simp [ErrorCondition]) (noErrorBefore_two _ s) fun ha hbefore => ?_⟩
    cases hr : s.memRead s.srcOff.toNat hdrLen with
    | error x =>
      obtain ⟨hnone, rfl⟩ := (memRead_eq_error_iff ..).mp hr
      exact .faulted _ (not_errorCondition_decode_of_unwritten ha hnone)
    | ok f =>
      have hd : decodesHeader .decode s (parseHeader f) := .inr ⟨rfl, f, (memRead_eq_ok_iff ..).mp hr, rfl⟩
      rw [Cmd.ok_bind]
      refine reportsFirst_decodeGeometry_bind hd hbefore fun g hg hbefore => ?_
      refine reportsFirst_payload ?_ (dstOverflow_iff_of_decodes hd hg) hbefore
      rw [truncatedPayload_iff_of_decodes hd, hg.dataSize]
      simp only [payloadAvail, if_true, hdrLen_eq] at ha ⊢
      omega
  | encodeHeader =>
    refine ⟨_, rfl, reportsFirst_encodeGeometry_bind (.inl rfl) fun g hg hbefore => ?_⟩
    have hbefore := hbefore.succ (e := .truncatedPayload) (not_truncatedPayload_encodeHeader s)
    exact reportsFirst_raiseIf_bind (dstOverflow_encodeHeader_iff s) hbefore fun _ hbefore => .committed _ hbefore.all
  | restride =>
    refine ⟨_, rfl, reportsFirst_encodeGeometry_bind (.inr (.inl rfl)) fun g hg hbefore => ?_⟩
    exact reportsFirst_payload (truncatedPayload_iff_of_encodes hg (.inl rfl)) (dstOverflow_restride_iff hg) hbefore
  | encode =>
    refine ⟨_, rfl, reportsFirst_encodeGeometry_bind (.inr (.inr rfl)) fun g hg hbefore => ?_⟩
    exact reportsFirst_payload (truncatedPayload_iff_of_encodes hg (.inr rfl)) (dstOverflow_encode_iff hg) hbefore

/-- A command whose first error condition is `e` completes with `e` (60_exceptions.md R207). -/
theorem exec_of_firstErrorCondition {i : Instr} {s : State} {e : ErrorKind} (he : FirstErrorCondition i s e) :
    exec i s = .next (s.completeError e) := by
  obtain ⟨x, hx, hfirst⟩ := exec_reportsFirst i s
  cases hfirst with
  | raised he' => rw [hx, finish_raise, he.unique he']
  | committed c hnone | faulted r hnone => exact absurd he.1 (hnone e)

/-- Settles O17. -/
theorem firstErrorConditionIsReported : Obligations.FirstErrorConditionIsReported :=
  ⟨fun _ hb hno => engineTurn_of_no_command hb hno,
    fun _ _ _ hb hp he hbefore =>
      (engineTurn_of_command hb (decode_eq_ok_iff.mpr hp)).trans (exec_of_firstErrorCondition ⟨he, hbefore⟩)⟩

/-- Settles O18: without a condition nothing is raised, and a fault has met an unwritten byte of the window. -/
theorem noErrorConditionMeansCommit : Obligations.NoErrorConditionMeansCommit := by
  intro i s hnone
  obtain ⟨x, hx, hfirst⟩ := exec_reportsFirst i s
  cases hfirst with
  | raised he => exact absurd he.1 (hnone _)
  | committed c => exact .inl ⟨s.completeSuccess c, hx, rfl⟩
  | faulted r => exact .inr ⟨hx, windowHole_of_exec_fault hx⟩

end Machine
end Sys2Proof
end

section
/-! PROOF. Reset and hazards: a register write to a busy machine, and the reset input (70_reset_and_hazards.md R230 to
R232, R235). -/

namespace Sys2Proof
namespace Machine

/-- A register write while BUSY = 1 that reaches a register is dropped (70_reset_and_hazards.md R235). -/
theorem hostTurn_regWrite_busy {s : State} {offset : Nat} {r : Reg} (v : Word) (hb : s.status.busy = true)
    (hr : regAccess .word offset = .ok r) : hostTurn (.regWrite .word offset v) s = .next s.dropWrite :=
  (hostTurn_eq_next_iff ..).mpr (.dropped offset v r hr hb)

/-- Settles O37: every aligned offset of the window reaches a register, and which one has no part in the outcome. -/
theorem busyRegisterWriteIsDropped : Obligations.BusyRegisterWriteIsDropped := by
  intro s offset v hb h4 hl
  obtain ⟨r, hr⟩ := exists_regAccess_iff.mpr ⟨rfl, h4, hl⟩
  exact hostTurn_regWrite_busy v hb hr

/-- Settles O46: the step is `State.resetInput`, which has no branch on BUSY. -/
theorem resetInputResetsEveryRegister : Obligations.ResetInputResetsEveryRegister := by
  intro s rest hi
  refine ⟨(s.withInputs rest).resetInput, step_of_reset hi, rfl, rfl, rfl, rfl, rfl, rfl, ?hrf, rfl, ?src, ?dst,
    rfl, rfl⟩
  case hrf => exact getElem_reset_hrf
  case src => exact Memory.read_nil
  case dst => exact Memory.read_nil

end Machine
end Sys2Proof
end
